-- ==== Sys2Proof/Word.lean ====
section
/-! DEFINITION. The widths of the block's values: the spec's bit vectors, each under the name the spec uses for it
(`00_scope.md` R4 and R7, `30_encoding.md` R50 and R52). Nothing is computed here. -/

namespace Sys2Proof

/-- A byte: the width of every location of the register set (R30). -/
abbrev Byte := BitVec 8

/-- A wide register or `cfg_top`, `COUNTER_BITS` bits wide (10 or 16, R4). Kept in 16 bits; with a 10-bit counter
bits 15:10 are zero (log entry 12). -/
abbrev Wide := BitVec 16

/-- One command word (R50). -/
abbrev CmdWord := BitVec 64

/-- A channel identifier `ch = cw[59:57]` (R52). -/
abbrev Chan := BitVec 3

/-- An abstract duty `cw[41:32]`, 0 to 1023 (R52). -/
abbrev Duty := BitVec 10

/-- A callback handle `cw[47:32]`, opaque to the block (R14, R52). -/
abbrev Handle := BitVec 16

/-- A period in microseconds `cw[31:0]` (R52). -/
abbrev Period := BitVec 32

/-- A selector code, `CS_BITS` = 4 bits; 0 selects no counting (R9, R16). -/
abbrev CsCode := BitVec 4

end Sys2Proof
end

