-- ==== Sys2Proof/Syntax.lean ====
section
/-! DEFINITION. The command set TF4CMD: one constructor per row of spec/opcode_table.json, in the table's order
(`30_encoding.md` R50 to R53). Operands are bit vectors of exactly the widths of R50 and R52, so that every term is an
encodable command; a field a command's format does not use is no operand of it (R51, R55). -/

namespace Sys2Proof

/-- One command (R53). -/
inductive Instr where
  /-- `initialize(period_us)`, R78. -/
  | init (period : Period)
  /-- `setPeriod(period_us)`, R77. -/
  | setperiod (period : Period)
  /-- `start()`, R91. -/
  | start
  /-- `stop()`, R92. -/
  | stop
  /-- `restart()`, R93. -/
  | restart
  /-- `resume()`, R94. -/
  | resume
  /-- `setPwmDuty(channel, duty)`, R102. -/
  | setpwmduty (ch : Chan) (duty : Duty)
  /-- `enablePwm(channel, duty)`, R103. -/
  | enpwm (ch : Chan) (duty : Duty)
  /-- `enablePwm(channel, duty, period_us)`, R104. -/
  | enpwmp (ch : Chan) (duty : Duty) (period : Period)
  /-- `disablePwm(channel)`, R105. -/
  | dispwm (ch : Chan)
  /-- `attachInterrupt(callback)`, R111. -/
  | attach (handle : Handle)
  /-- `attachInterrupt(callback, period_us)`, R112. -/
  | attachp (handle : Handle) (period : Period)
  /-- `detachInterrupt()`, R113. -/
  | detach
deriving DecidableEq, Repr

end Sys2Proof
end

