-- ==== Sys2Proof/WellFormed.lean ====
section
/-! DEFINITION. Commands as they are written (`30_encoding.md` R57, R58): a mnemonic with natural-number operands, and
the check that they can be expressed in a command word (R52). `Instr` itself has no ill-formed term, because its
operands have the exact widths of R50; the check therefore stands here, at the written form. The source's spelling
(`setPeriod`) and the mnemonic (`SETPERIOD`) are synonyms (R57), so one constructor stands for both (log
entry 18). -/

namespace Sys2Proof

/-- A written command. `init none` is the pseudo-form `INIT()` (R58 a). -/
inductive Written where
  | init (period : Option Nat)
  | setperiod (period : Nat)
  | start
  | stop
  | restart
  | resume
  | setpwmduty (ch duty : Nat)
  | enpwm (ch duty : Nat)
  | enpwmp (ch duty period : Nat)
  | dispwm (ch : Nat)
  | attach (handle : Nat)
  | attachp (handle period : Nat)
  | detach
deriving DecidableEq, Repr

/-- The period of `INIT()` with no operand (R58 a, R78). -/
def defaultPeriod : Nat := 1000000

/-- R52: `period_us` is a natural in 0 to 2^32 - 1. -/
def periodOk (p : Nat) : Bool := decide (p < 2 ^ 32)

/-- R52: `duty` is a natural in 0 to 1023; "a duty above 1023 cannot be expressed". -/
def dutyOk (d : Nat) : Bool := decide (d < 2 ^ 10)

/-- R52: `ch` is 0 to 7 (6 and 7 are expressible, and ignored by R55). -/
def chanOk (c : Nat) : Bool := decide (c < 2 ^ 3)

/-- R52: `handle` is any 16-bit value. -/
def handleOk (h : Nat) : Bool := decide (h < 2 ^ 16)

/-- Every operand can be expressed in its field (R52). -/
def Written.wf : Written → Bool
  | .init none => true
  | .init (some p) => periodOk p
  | .setperiod p => periodOk p
  | .start => true
  | .stop => true
  | .restart => true
  | .resume => true
  | .setpwmduty c d => chanOk c && dutyOk d
  | .enpwm c d => chanOk c && dutyOk d
  | .enpwmp c d p => chanOk c && dutyOk d && periodOk p
  | .dispwm c => chanOk c
  | .attach h => handleOk h
  | .attachp h p => handleOk h && periodOk p
  | .detach => true

/-- The command a written form stands for (R57, R58). -/
def Written.toInstr : Written → Instr
  | .init none => .init (BitVec.ofNat 32 defaultPeriod)
  | .init (some p) => .init (BitVec.ofNat 32 p)
  | .setperiod p => .setperiod (BitVec.ofNat 32 p)
  | .start => .start
  | .stop => .stop
  | .restart => .restart
  | .resume => .resume
  | .setpwmduty c d => .setpwmduty (BitVec.ofNat 3 c) (BitVec.ofNat 10 d)
  | .enpwm c d => .enpwm (BitVec.ofNat 3 c) (BitVec.ofNat 10 d)
  | .enpwmp c d p => .enpwmp (BitVec.ofNat 3 c) (BitVec.ofNat 10 d) (BitVec.ofNat 32 p)
  | .dispwm c => .dispwm (BitVec.ofNat 3 c)
  | .attach h => .attach (BitVec.ofNat 16 h)
  | .attachp h p => .attachp (BitVec.ofNat 16 h) (BitVec.ofNat 32 p)
  | .detach => .detach

end Sys2Proof
end

