-- ==== Sys2Proof/Decode.lean ====
section
/-! DEFINITION. The command word (`30_encoding.md` R50 to R56): the decoder, total on every 64-bit word (R60), and after
it the encoder, both written from the field table of R50 and the opcode map of R53. -/

namespace Sys2Proof

/-- `op = cw[63:60]` (R50). -/
def CmdWord.op (cw : CmdWord) : BitVec 4 := cw.extractLsb' 60 4

/-- `ch = cw[59:57]` (R52). -/
def CmdWord.ch (cw : CmdWord) : Chan := cw.extractLsb' 57 3

/-- `duty = cw[41:32]` (R52). -/
def CmdWord.duty (cw : CmdWord) : Duty := cw.extractLsb' 32 10

/-- `handle = cw[47:32]` (R52). -/
def CmdWord.handle (cw : CmdWord) : Handle := cw.extractLsb' 32 16

/-- `period_us = cw[31:0]` (R52). -/
def CmdWord.period (cw : CmdWord) : Period := cw.extractLsb' 0 32

/-- What a word means: one of the thirteen commands, or a reserved opcode, rejected by name (R54, R60). -/
inductive Decoded where
  | instr (i : Instr)
  | reservedOpcode (op : BitVec 4)
deriving DecidableEq, Repr

/-- The decoder: "reads `op = cw[63:60]` and needs nothing else to choose the command" (R53). -/
def decode (cw : CmdWord) : Decoded :=
  match CmdWord.op cw with
  | 1#4 => .instr (.init (CmdWord.period cw))
  | 2#4 => .instr (.setperiod (CmdWord.period cw))
  | 3#4 => .instr .start
  | 4#4 => .instr .stop
  | 5#4 => .instr .restart
  | 6#4 => .instr .resume
  | 7#4 => .instr (.setpwmduty (CmdWord.ch cw) (CmdWord.duty cw))
  | 8#4 => .instr (.enpwm (CmdWord.ch cw) (CmdWord.duty cw))
  | 9#4 => .instr (.enpwmp (CmdWord.ch cw) (CmdWord.duty cw) (CmdWord.period cw))
  | 10#4 => .instr (.dispwm (CmdWord.ch cw))
  | 11#4 => .instr (.attach (CmdWord.handle cw))
  | 12#4 => .instr (.attachp (CmdWord.handle cw) (CmdWord.period cw))
  | 13#4 => .instr .detach
  | op => .reservedOpcode op

/-- A word from its five fields, most significant first; bits 56:48 are reserved and written 0 (R50). -/
def packWord (op : BitVec 4) (ch : Chan) (arg16 : BitVec 16) (period : Period) : CmdWord :=
  op ++ ch ++ 0#9 ++ arg16 ++ period

/-- `arg16` of format C: `duty` in bits 9:0, bits 15:10 (cw[47:42]) ignored and written 0 (R50). -/
def dutyArg (duty : Duty) : BitVec 16 := 0#6 ++ duty

/-- The opcode of a command (R53). -/
def Instr.opcode : Instr → BitVec 4
  | .init _ => 1#4
  | .setperiod _ => 2#4
  | .start => 3#4
  | .stop => 4#4
  | .restart => 5#4
  | .resume => 6#4
  | .setpwmduty _ _ => 7#4
  | .enpwm _ _ => 8#4
  | .enpwmp _ _ _ => 9#4
  | .dispwm _ => 10#4
  | .attach _ => 11#4
  | .attachp _ _ => 12#4
  | .detach => 13#4

/-- The word of a command; every ignored bit is written 0 (R50, R51). -/
def encode : Instr → CmdWord
  | .init p => packWord 1#4 0#3 0#16 p
  | .setperiod p => packWord 2#4 0#3 0#16 p
  | .start => packWord 3#4 0#3 0#16 0#32
  | .stop => packWord 4#4 0#3 0#16 0#32
  | .restart => packWord 5#4 0#3 0#16 0#32
  | .resume => packWord 6#4 0#3 0#16 0#32
  | .setpwmduty ch d => packWord 7#4 ch (dutyArg d) 0#32
  | .enpwm ch d => packWord 8#4 ch (dutyArg d) 0#32
  | .enpwmp ch d p => packWord 9#4 ch (dutyArg d) p
  | .dispwm ch => packWord 10#4 ch 0#16 0#32
  | .attach h => packWord 11#4 0#3 h 0#32
  | .attachp h p => packWord 12#4 0#3 h p
  | .detach => packWord 13#4 0#3 0#16 0#32

/-- The bits of a word that its opcode uses; every other bit is ignored (R51, R55 a; the letters other than x of
the `encoding` strings of spec/opcode_table.json). A reserved opcode uses no bit but the opcode (R54). -/
def usedBits (op : BitVec 4) : CmdWord :=
  match op with
  | 1#4 => 0xF0000000FFFFFFFF#64
  | 2#4 => 0xF0000000FFFFFFFF#64
  | 7#4 => 0xFE0003FF00000000#64
  | 8#4 => 0xFE0003FF00000000#64
  | 9#4 => 0xFE0003FFFFFFFFFF#64
  | 10#4 => 0xFE00000000000000#64
  | 11#4 => 0xF000FFFF00000000#64
  | 12#4 => 0xF000FFFFFFFFFFFF#64
  | _ => 0xF000000000000000#64

/-- The words of a program: "a sequence of commands, one per line, run top to bottom" (R57); none if a line cannot
be expressed (R52). -/
def assemble : List Written → Option (List CmdWord)
  | [] => some []
  | w :: ws =>
    match w.wf, assemble ws with
    | true, some rest => some (encode w.toInstr :: rest)
    | _, _ => none

/-- The word whose bits are `w`; a command word has 64 bits, and bits above `nbits` are 0 (log entry 21). -/
def tableWord (nbits w : Nat) : CmdWord := BitVec.ofNat 64 (w % 2 ^ nbits)

/-- The instruction the decoder reads from a word numbered as spec/opcode_table.json numbers it. -/
def decodeTableWord (nbits w : Nat) : Option Instr :=
  match decode (tableWord nbits w) with
  | .instr i => some i
  | .reservedOpcode _ => none

end Sys2Proof
end

