-- ==== Sys2Proof/Config.lean ====
section
/-! DEFINITION. What an implementation fixes: the parameters of `00_scope.md` R4, and the free values that the spec
leaves open (`93_implementation_defined.md` U1, U2, U7, U10). The parameters are plain data that State carries
(log entry 1), so that a statement holds for every value of them. -/

namespace Sys2Proof

/-- `COUNTER_BITS` is 10 or 16 (R4, D8). -/
inductive CounterBits where
  | ten
  | sixteen
deriving DecidableEq, Repr, Inhabited

/-- The number of bits. -/
def CounterBits.bits : CounterBits → Nat
  | .ten => 10
  | .sixteen => 16

/-- The parameters of R4 that are not fixed by the spec. "Immutable for the process lifetime": no step changes
them. `REG_ADDR` is not among them: no rule reads it (`Config.regAddr`). -/
structure Params where
  /-- `VARIANT_PRESENT` (R59). -/
  variantPresent : Bool
  /-- `COUNTER_BITS`. -/
  counterBits : CounterBits
  /-- `BASE_CLOCK_HZ`, OPEN. -/
  baseClockHz : Nat
  /-- `PLLCFG_96MHZ`, OPEN: the byte that configures the PLL to the full 96 MHz tap (R25). -/
  pllcfg96MHz : Byte
  /-- `PLLCFG_IN_HALF_BRANCH` (R71, D17). -/
  pllcfgInHalfBranch : Bool
deriving DecidableEq, Repr, Inhabited

/-- The values drawn once at a reset for every field that R27 leaves unspecified (U1, U2). -/
structure Draw where
  cfgCs : CsCode
  cfgTop : Wide
  ctrl : Byte
  temph : Byte
  top : Wide
  cnt : Wide
  cmp0 : Wide
  cmp1 : Wide
  cmp2 : Wide
  imask : Byte
  outen : Byte
  pwmen : Byte
  clksrc : Byte
  pllcfg : Byte
deriving DecidableEq, Repr, Inhabited

/-- FREE VALUE (log entry 4): the draw of the n-th reset. U1: "a draw ... made once at reset ... Never zero by
default, never a fixed number"; U2: "`any value`, drawn once at reset". -/
opaque Config.resetDraw : Nat → Draw

/-- FREE VALUE (log entry 2): the bits of the PLL configuration write, OPEN and without a default (R4, R25, U7). -/
opaque Config.pllcfg96MHz : Byte

/-- FREE VALUE (log entry 3): `REG_ADDR`, the physical address of a register index, OPEN (R4, R30, U10). "no rule
depends on" it, and nothing in the model reads it. -/
opaque Config.regAddr : Nat → Nat

/-- The defaults of R4; `PLLCFG_96MHZ`, which has none, is the free value above. -/
def Params.default : Params where
  variantPresent := true
  counterBits := .ten
  baseClockHz := 16000000
  pllcfg96MHz := Config.pllcfg96MHz
  pllcfgInHalfBranch := false

/-- `RES = 2^COUNTER_BITS` (R4). -/
def Params.res (P : Params) : Nat := 2 ^ P.counterBits.bits

/-- `HI_BITS = COUNTER_BITS - 8` (R4). -/
def Params.hiBits (P : Params) : Nat := P.counterBits.bits - 8

/-- The bits a wide register keeps: `COUNTER_BITS-1`:0 (R18 to R20). -/
def Params.wideMask (P : Params) : Wide :=
  match P.counterBits with
  | .ten => 0x03FF#16
  | .sixteen => 0xFFFF#16

/-- The bits `TEMPH` keeps: `HI_BITS-1`:0 (R17). -/
def Params.tempMask (P : Params) : Byte :=
  match P.counterBits with
  | .ten => 0x03#8
  | .sixteen => 0xFF#8

/-- `PLL_HZ`, fixed (R4). -/
def Config.pllHz : Nat := 96000000

/-- `M_PLL = PLL_HZ div 2000000` (R4). -/
def Config.mPll : Nat := Config.pllHz / 2000000

/-- `M_HALF = (PLL_HZ div 2) div 2000000` (R4, D7). -/
def Config.mHalf : Nat := Config.pllHz / 2 / 2000000

/-- `M_BASE = BASE_CLOCK_HZ div 2000000` (R4, R72). -/
def Params.mBase (P : Params) : Nat := P.baseClockHz / 2000000

/-- `MODE_PFC` (R4, D13). -/
def Config.modePfc : BitVec 2 := 0b01#2

end Sys2Proof
end

