-- ==== Sys2Proof/Machine/State.lean ====
section
/-! DEFINITION. The state of TF4CFG as plain data (`10_state.md`): the block state (R10 to R14), the register set
(R15 to R25), the trace of events that is the observation of a run (R5), and what the outside world offers: command
words and the environment's choices (R6, R140, R156). Reset is R27. -/

namespace Sys2Proof.Machine

/-- The two run-control states (R13, R90). -/
inductive RunState where
  | stopped
  | running
deriving DecidableEq, Repr

/-- The twelve locations of the register set (R15). Indices 12 to 15 "name nothing". -/
inductive Reg where
  | ctrl
  | temph
  | topl
  | cntl
  | cmpl0
  | cmpl1
  | cmpl2
  | imask
  | outen
  | pwmen
  | clksrc
  | pllcfg
deriving DecidableEq, Repr

/-- The three comparators (R20, R100). -/
inductive Comparator where
  | k0
  | k1
  | k2
deriving DecidableEq, Repr

/-- The five wide registers (R15, R36). -/
inductive WideReg where
  | top
  | cnt
  | cmp (k : Comparator)
deriving DecidableEq, Repr

/-- The two outputs of a comparator (R100). -/
inductive Polarity where
  | trueOutput
  | complementary
deriving DecidableEq, Repr

/-- The clock sources of `CLKSRC.src` (R24, R71). -/
inductive ClockSource where
  | base
  | pllFull
  | pllHalf
deriving DecidableEq, Repr

/-- An event (R5): a masked write `W(reg, mask, data)`, a pin request `PIN(ch)`, a callback `CB(h)`. -/
inductive Event where
  | w (reg : Reg) (mask data : Byte)
  | pin (ch : Chan)
  | cb (h : Handle)
deriving DecidableEq, Repr

/-- What the environment does at a point where it may act (log entry 5). -/
inductive EnvInput where
  /-- Nothing more here: the command agent takes its next action. -/
  | proceed
  /-- The downstream counter overflowed (R116, R122). -/
  | overflow
  /-- The free-running counter moved to `v` (R19, R130; log entry 8). -/
  | tick (v : Wide)
  /-- The reset input `rst` (R140; log entry 9). -/
  | reset
deriving DecidableEq, Repr

/-- One action of a command: an event, a `WriteWide` pair (R36), or an update of the block state (R5). A command is a
list of these, in the order of its rule. -/
inductive Action where
  /-- `emit W(reg, mask, data)`. -/
  | w (reg : Reg) (mask data : Byte)
  /-- `WriteWide(regL, v)`. -/
  | wide (reg : WideReg) (v : Wide)
  /-- `emit PIN(ch)`. -/
  | pin (ch : Chan)
  /-- `cfg_cs <- code; cfg_top <- top; cfg_valid <- 1` (R77). -/
  | setConfig (code : CsCode) (top : Wide)
  /-- `handle <- SOME(h)` (R111). -/
  | setHandle (h : Handle)
  /-- `run <- r` (R91, R92, R94). -/
  | setRun (r : RunState)
deriving DecidableEq, Repr

/-- The block state (R10 to R14). -/
structure Block where
  /-- TimerConfig's prescaler code (R10). -/
  cfgCs : CsCode
  /-- TimerConfig's counter-top value (R10). -/
  cfgTop : Wide
  /-- Whether TimerConfig is defined (R11). -/
  cfgValid : Bool
  /-- The run state (R13). -/
  run : RunState
  /-- The InterruptHandle (R14). -/
  handle : Option Handle
deriving DecidableEq, Repr

/-- The register set (R15 to R25): seven byte-wide registers and the five wide registers. -/
structure RegSet where
  ctrl : Byte
  temph : Byte
  top : Wide
  cnt : Wide
  cmp0 : Wide
  cmp1 : Wide
  cmp2 : Wide
  imask : Byte
  outen : Byte
  pwmen : Byte
  clksrc : Byte
  pllcfg : Byte
deriving DecidableEq, Repr

/-- The state of the machine. -/
structure State where
  /-- The parameters of R4, which no step changes (log entry 1). -/
  params : Params
  /-- The block state. -/
  block : Block
  /-- The register set. -/
  regs : RegSet
  /-- The events emitted so far, in the order emitted (R5). -/
  trace : List Event
  /-- The model's own field: the environment's coming choices, the next one first (log entry 5). -/
  env : List EnvInput
  /-- The model's own field: the command words offered on the command port, the next one first (log entry 10). -/
  cmds : List CmdWord
  /-- The model's own field: the number of resets taken, which selects the reset draw (log entry 4). -/
  resets : Nat
deriving DecidableEq, Repr

/-- The faults of the machine: none. R120: "A model has no fault outcome for any command". The type is empty, so a
fault cannot be answered (log entry 23); safe. -/
inductive Fault where
deriving DecidableEq, Repr

/-- The refusals of the machine. -/
inductive Refusal where
  /-- An instruction without a meaning, rejected by name in an arm of exec. No arm raises it: every command has its
  meaning. Safe. -/
  | notModelled (mnemonic : String)
deriving DecidableEq, Repr

/-- The block state at reset (R27): Stopped, `cfg_valid` = 0, no handle; TimerConfig is the draw (U1). -/
def Block.atReset (P : Params) (d : Draw) : Block where
  cfgCs := d.cfgCs
  cfgTop := d.cfgTop &&& P.wideMask
  cfgValid := false
  run := .stopped
  handle := none

/-- The register set at reset (R27): `CTRL.cs` = 0 and `IMASK.ovf` = 0; every other bit is the draw (U2), cut to the
width its register keeps. -/
def RegSet.atReset (P : Params) (d : Draw) : RegSet where
  ctrl := d.ctrl &&& 0xF0#8
  temph := d.temph &&& P.tempMask
  top := d.top &&& P.wideMask
  cnt := d.cnt &&& P.wideMask
  cmp0 := d.cmp0 &&& P.wideMask
  cmp1 := d.cmp1 &&& P.wideMask
  cmp2 := d.cmp2 &&& P.wideMask
  imask := d.imask &&& 0xFE#8
  outen := d.outen
  pwmen := d.pwmen
  clksrc := d.clksrc
  pllcfg := d.pllcfg

/-- The state after the n-th reset of a machine with parameters `P`: R27, R141; nothing emitted, nothing offered. -/
def State.atReset (P : Params) (n : Nat) : State where
  params := P
  block := Block.atReset P (Config.resetDraw n)
  regs := RegSet.atReset P (Config.resetDraw n)
  trace := []
  env := []
  cmds := []
  resets := n

/-- The machine right after reset (R27, R141), with the default parameters of R4. -/
def State.reset : State := State.atReset Params.default 0

end Sys2Proof.Machine
end

