-- ==== Sys2Proof/Machine/Flags.lean ====
section
/-! DEFINITION. The flags and fields the spec names inside registers (`10_state.md` R13, R16, R21 to R24) and the bytes
and bits the commands compute for them. -/

namespace Sys2Proof.Machine

/-- `CTRL.cs` = bits 3:0 (R16). -/
def RegSet.cs (r : RegSet) : CsCode := r.ctrl.extractLsb' 0 4

/-- `CTRL.mode` = bits 5:4 (R16). -/
def RegSet.mode (r : RegSet) : BitVec 2 := r.ctrl.extractLsb' 4 2

/-- `IMASK.ovf` = bit 0 (R21). -/
def RegSet.ovfEnabled (r : RegSet) : Bool := r.imask.getLsbD 0

/-- `OUTEN.oe[ch]` = bit `ch` (R22). -/
def RegSet.outputEnabled (r : RegSet) (ch : Chan) : Bool := r.outen.getLsbD ch.toNat

/-- `k` as a number (R100). -/
def Comparator.index : Comparator → Nat
  | .k0 => 0
  | .k1 => 1
  | .k2 => 2

/-- `PWMEN.pwm[k]` = bit `k` (R23). -/
def RegSet.pwmMode (r : RegSet) (k : Comparator) : Bool := r.pwmen.getLsbD k.index

/-- `CLKSRC.src` = bits 1:0 (R24). -/
def RegSet.src (r : RegSet) : BitVec 2 := r.clksrc.extractLsb' 0 2

/-- The byte written to `CLKSRC` for a source: `BASE` = 0, `PLL_FULL` = 1, `PLL_HALF` = 2 (R24). -/
def ClockSource.code : ClockSource → Byte
  | .base => 0x00#8
  | .pllFull => 0x01#8
  | .pllHalf => 0x02#8

/-- `(MODE_PFC << 4) | cfg_cs`, the data byte of the restoring write (R91, R94). -/
def restoreByte (cs : CsCode) : Byte := (Config.modePfc.setWidth 8 <<< 4) ||| cs.setWidth 8

/-- `1 << ch`, the mask of `OUTEN.oe[ch]` (R103, R105). -/
def outputBit (ch : Chan) : Byte := 1#8 <<< ch.toNat

/-- `1 << k`, the mask of `PWMEN.pwm[k]` (R103). -/
def pwmBit (k : Comparator) : Byte := 1#8 <<< k.index

end Sys2Proof.Machine
end

