-- ==== Sys2Proof/Machine/Operands.lean ====
section
/-! DEFINITION. Operand forms: the ChannelBinding (`42_pwm_channel.md` R100), duty scaling (R101), the two bytes of a
wide value (`20_memory.md` R35), and the locations of the register set by index (`10_state.md` R15). -/

namespace Sys2Proof.Machine

/-- The comparator of a supported channel, `k = ch >> 1`; channels 6 and 7 are unsupported (R52, R100, R106). -/
def channelComparator (ch : Chan) : Option Comparator :=
  match ch.toNat with
  | 0 => some .k0
  | 1 => some .k0
  | 2 => some .k1
  | 3 => some .k1
  | 4 => some .k2
  | 5 => some .k2
  | _ => none

/-- `pol = ch & 1`: 0 the true output, 1 the complementary one (R100). -/
def channelPolarity (ch : Chan) : Polarity :=
  if ch.getLsbD 0 then .complementary else .trueOutput

/-- `PhysDuty(top, duty) = (top * duty) >> 10`, the product exact (R101). -/
def physDuty (top duty : Nat) : Nat := (top * duty) >>> 10

/-- The value written to the compare register for a duty against `cfg_top` (R102). -/
def dutyValue (top : Wide) (duty : Duty) : Wide := BitVec.ofNat 16 (physDuty top.toNat duty.toNat)

/-- The high byte `v >> 8` of a wide value, which goes to `TEMPH` (R35). -/
def wideHigh (v : Wide) : Byte := v.extractLsb' 8 8

/-- The low byte `v & 0xFF` of a wide value, which goes to the low-byte location (R35). -/
def wideLow (v : Wide) : Byte := v.extractLsb' 0 8

/-- The value a low-byte write latches: `TEMPH ++ data` (R32). -/
def latched (temph data : Byte) : Wide := temph ++ data

/-- The low-byte location of a wide register (R15). -/
def WideReg.low : WideReg → Reg
  | .top => .topl
  | .cnt => .cntl
  | .cmp .k0 => .cmpl0
  | .cmp .k1 => .cmpl1
  | .cmp .k2 => .cmpl2

/-- The register index of a location, 0 to 11 (R15). -/
def Reg.index : Reg → BitVec 4
  | .ctrl => 0#4
  | .temph => 1#4
  | .topl => 2#4
  | .cntl => 3#4
  | .cmpl0 => 4#4
  | .cmpl1 => 5#4
  | .cmpl2 => 6#4
  | .imask => 7#4
  | .outen => 8#4
  | .pwmen => 9#4
  | .clksrc => 10#4
  | .pllcfg => 11#4

end Sys2Proof.Machine
end

