-- ==== Sys2Proof/Machine/Ops.lean ====
section
/-! DEFINITION. The shared operations: the write primitive `W` (`20_memory.md` R31 to R34), emitting events (R5),
delivering the overflow interrupt (`43_interrupt_hook.md` R116, `60_exceptions.md` R125), the environment's movements
of the counter (R19) and reset (`70_reset_and_hazards.md` R140), and running the action list of a command with the
interleavings that R38 and R116 allow. -/

namespace Sys2Proof.Machine

/-- `(R[reg] & ~mask) | (data & mask)` (R31). -/
def maskedByte (old mask data : Byte) : Byte := (old &&& ~~~mask) ||| (data &&& mask)

/-- `W(reg, mask, data)` on the register set (R31). `TEMPH` takes the data cut to `HI_BITS` (R34), and a low-byte
location sets its whole wide register from `TEMPH` and the data (R32); there the mask is always 0xFF and is not read
(log entry 13). `TEMPH` keeps its value at a low-byte write (R34; log entry 14). -/
def RegSet.write (P : Params) (r : RegSet) (reg : Reg) (mask data : Byte) : RegSet :=
  match reg with
  | .ctrl => { r with ctrl := maskedByte r.ctrl mask data }
  | .temph => { r with temph := data &&& P.tempMask }
  | .topl => { r with top := latched r.temph data }
  | .cntl => { r with cnt := latched r.temph data }
  | .cmpl0 => { r with cmp0 := latched r.temph data }
  | .cmpl1 => { r with cmp1 := latched r.temph data }
  | .cmpl2 => { r with cmp2 := latched r.temph data }
  | .imask => { r with imask := maskedByte r.imask mask data }
  | .outen => { r with outen := maskedByte r.outen mask data }
  | .pwmen => { r with pwmen := maskedByte r.pwmen mask data }
  | .clksrc => { r with clksrc := maskedByte r.clksrc mask data }
  | .pllcfg => { r with pllcfg := maskedByte r.pllcfg mask data }

/-- The value of a wide register (R15). -/
def RegSet.wideValue (r : RegSet) : WideReg → Wide
  | .top => r.top
  | .cnt => r.cnt
  | .cmp .k0 => r.cmp0
  | .cmp .k1 => r.cmp1
  | .cmp .k2 => r.cmp2

/-- Append an event to the trace (R8). -/
def State.emit (s : State) (e : Event) : State := { s with trace := s.trace ++ [e] }

/-- `emit W(reg, mask, data)`: the event, and its effect on the register set before the next event (R31, R41). -/
def State.emitW (s : State) (reg : Reg) (mask data : Byte) : State :=
  { s with regs := s.regs.write s.params reg mask data, trace := s.trace ++ [.w reg mask data] }

/-- `cfg_cs <- code; cfg_top <- top; cfg_valid <- 1` (R77). -/
def Block.setConfig (b : Block) (code : CsCode) (top : Wide) : Block :=
  { b with cfgCs := code, cfgTop := top, cfgValid := true }

/-- `handle <- SOME(h)` (R111). -/
def Block.setHandle (b : Block) (h : Handle) : Block := { b with handle := some h }

/-- `run <- r` (R13). -/
def Block.setRun (b : Block) (r : RunState) : Block := { b with run := r }

/-- The handle `OvfDeliver` presents, when it is enabled (R116): the mask is set, the unit is not inert (R59), and a
handle is stored. With the mask set and no handle, which R114 rules out of every run, there is no `CB(h)` to emit
(log entry 7). -/
def State.callback (s : State) : Option Handle :=
  if s.params.variantPresent && s.regs.ovfEnabled then s.block.handle else none

/-- `OvfDeliver` (R116, R125): the one event `CB(h)` if it is enabled; no block state and no register changes. An
overflow while it is not enabled "leaves no trace". -/
def State.deliverOverflow (s : State) : State :=
  match s.callback with
  | some h => s.emit (.cb h)
  | none => s

/-- The free-running counter moves to `v` by itself: only while `CTRL.cs` is not 0 (R19, R130; log entry 8). -/
def State.tick (s : State) (v : Wide) : State :=
  if s.regs.cs = 0#4 then s else { s with regs := { s.regs with cnt := v &&& s.params.wideMask } }

/-- The reset input (R140): the reset state of R27 with a fresh draw for what R27 leaves unspecified; it emits
nothing. What was observed, and what the outside world still offers, stays (log entry 9). -/
def State.hardReset (s : State) : State :=
  { State.atReset s.params (s.resets + 1) with trace := s.trace, env := s.env, cmds := s.cmds }

/-- Whether the command in progress goes on, or was dropped by a reset (R140). -/
inductive Flow where
  | go (s : State)
  | dropped (s : State)
deriving DecidableEq, Repr

/-- The state, whichever way it went. -/
def Flow.state : Flow → State
  | .go s => s
  | .dropped s => s

/-- A point at which the interrupt agent may step (R116): the environment's inputs are taken up to the first
`proceed`, or all of them. -/
def interruptPoint : List EnvInput → State → Flow
  | [], s => .go { s with env := [] }
  | .proceed :: e, s => .go { s with env := e }
  | .overflow :: e, s => interruptPoint e s.deliverOverflow
  | .tick v :: e, s => interruptPoint e (s.tick v)
  | .reset :: e, s => .dropped { s with env := e }.hardReset

/-- The point inside a `WriteWide` pair: the interrupt agent may not step (R38), so an overflow stays in the list and is
"delivered, if at all, by a step after the pair" (R116). The counter may move and a reset may come. -/
def pairPoint : List EnvInput → State → Flow
  | [], s => .go { s with env := [] }
  | .proceed :: e, s => .go { s with env := e }
  | .overflow :: e, s => .go { s with env := .overflow :: e }
  | .tick v :: e, s => pairPoint e (s.tick v)
  | .reset :: e, s => .dropped { s with env := e }.hardReset

/-- `WriteWide(regL, v)`: high byte to `TEMPH`, then low byte to the target, both for every `v` (R36). -/
def State.writeWide (s : State) (reg : WideReg) (v : Wide) : Flow :=
  match pairPoint s.env (s.emitW .temph 0xFF#8 (wideHigh v)) with
  | .go t => .go (t.emitW reg.low 0xFF#8 (wideLow v))
  | .dropped t => .dropped t

/-- One action of a command. -/
def State.act (s : State) : Action → Flow
  | .w reg mask data => .go (s.emitW reg mask data)
  | .wide reg v => s.writeWide reg v
  | .pin ch => .go (s.emit (.pin ch))
  | .setConfig code top => .go { s with block := s.block.setConfig code top }
  | .setHandle h => .go { s with block := s.block.setHandle h }
  | .setRun r => .go { s with block := s.block.setRun r }

/-- Run the actions of a command in order, with a point for the interrupt agent between any two (R41, R116; log
entry 6). A reset drops the actions that remain (R140). -/
def perform : List Action → State → State
  | [], s => s
  | [a], s => (s.act a).state
  | a :: b :: rest, s =>
    match s.act a with
    | .dropped t => t
    | .go t =>
      match interruptPoint t.env t with
      | .dropped u => u
      | .go u => perform (b :: rest) u

/-- Execute a command given by its actions. In the inert unit "every command word ... is `ignore`d" (R59). Nothing
faults and nothing is refused (R120; log entries 17 and 23). -/
def runCommand (acts : List Action) (s : State) : Host.Outcome State Fault Refusal :=
  .next (if s.params.variantPresent then perform acts s else s)

/-- Whose turn the environment makes it. -/
inductive Turn where
  /-- The environment or the interrupt agent took this step, to this state. -/
  | environment (s : State)
  /-- The command agent takes this step, from this state. -/
  | command (s : State)
deriving DecidableEq, Repr

/-- Between two commands the environment's next input says who steps (R6, R124; log entry 5). -/
def State.turn (s : State) : Turn :=
  match s.env with
  | [] => .command s
  | .proceed :: e => .command { s with env := e }
  | .overflow :: e => .environment { s with env := e }.deliverOverflow
  | .tick v :: e => .environment ({ s with env := e }.tick v)
  | .reset :: e => .environment { s with env := e }.hardReset

/-- Accept the next command word from the command port, if one is offered (R12, R156). -/
def State.accept (s : State) : Option (CmdWord × State) :=
  match s.cmds with
  | [] => none
  | w :: ws => some (w, { s with cmds := ws })

/-- The status outputs `cfg_cs`, `cfg_top` and `run` (R29); reading them has no side effect. -/
structure Status where
  cfgCs : CsCode
  cfgTop : Wide
  run : RunState
deriving DecidableEq, Repr

/-- What the status outputs present (R29). -/
def State.status (s : State) : Status := ⟨s.block.cfgCs, s.block.cfgTop, s.block.run⟩

end Sys2Proof.Machine
end

