-- ==== Sys2Proof/Machine/Resolver.lean ====
section
/-! DEFINITION. The period resolver and its commands (`40_period_resolver.md`): clock choice R71, raw tick count R72,
prescaler table R73, tier selection R74, SETPERIOD R77, INIT R78. The arithmetic is exact, in naturals. -/

namespace Sys2Proof.Machine

/-- What `ClockChoice` gives (R71). -/
structure ClockChoice where
  src : ClockSource
  mult : Nat
  pllcfg : Bool
deriving DecidableEq, Repr

/-- `ClockChoice(p)` (R71). -/
def clockChoice (P : Params) (p : Nat) : ClockChoice :=
  if p < 1000 then ⟨.pllFull, Config.mPll, true⟩
  else if p < 2000 then ⟨.pllHalf, Config.mHalf, P.pllcfgInHalfBranch⟩
  else ⟨.base, P.mBase, false⟩

/-- `Cycles(p) = M * p`, exact (R72). -/
def cycles (P : Params) (p : Nat) : Nat := (clockChoice P p).mult * p

/-- A row of the PrescalerTable: a divide ratio and its selector code (R73). -/
structure Tier where
  ratio : Nat
  code : CsCode
deriving DecidableEq, Repr

/-- The fifteen rows of the PrescalerTable, in increasing ratio (R73, C1; the codes are log entry 15). -/
def prescalerTable : List Tier :=
  [⟨1, 1#4⟩, ⟨2, 2#4⟩, ⟨4, 3#4⟩, ⟨8, 4#4⟩, ⟨16, 5#4⟩, ⟨32, 6#4⟩, ⟨64, 7#4⟩, ⟨128, 8#4⟩, ⟨256, 9#4⟩, ⟨512, 10#4⟩,
   ⟨1024, 11#4⟩, ⟨2048, 12#4⟩, ⟨4096, 13#4⟩, ⟨8192, 14#4⟩, ⟨16384, 15#4⟩]

/-- What `Resolve` gives (R74). `saturated` "is not state and not an output". -/
structure Resolved where
  code : CsCode
  top : Nat
  saturated : Bool
deriving DecidableEq, Repr

/-- The walk of R74 over the rows that remain: the first whose `RES * ratio` exceeds `cycles`, else saturation at the
largest code. -/
def resolveIn (res n : Nat) : List Tier → Resolved
  | [] => ⟨15#4, res - 1, true⟩
  | t :: rest => if res * t.ratio > n then ⟨t.code, n / t.ratio, false⟩ else resolveIn res n rest

/-- `Resolve(cycles)` (R74). -/
def resolve (res n : Nat) : Resolved := resolveIn res n prescalerTable

/-- The resolver as a whole (R70): `Resolve(Cycles(p))`. -/
def resolvePeriod (P : Params) (p : Nat) : Resolved := resolve P.res (cycles P p)

/-- The counter-top value of a period, as `cfg_top` holds it. -/
def periodTop (P : Params) (p : Period) : Wide := BitVec.ofNat 16 (resolvePeriod P p.toNat).top

/-- The PLL configuration write, when R71 asks for it. -/
def pllActions (P : Params) (c : ClockChoice) : List Action :=
  if c.pllcfg then [.w .pllcfg 0xFF#8 P.pllcfg96MHz] else []

/-- The actions of `SETPERIOD(p)`, in the order of R77 (log entry 22). -/
def setPeriodActions (P : Params) (p : Period) : List Action :=
  [.w .clksrc 0x03#8 (clockChoice P p.toNat).src.code]
    ++ pllActions P (clockChoice P p.toNat)
    ++ [.setConfig (resolvePeriod P p.toNat).code (periodTop P p), .wide .top (periodTop P p)]

/-- `SETPERIOD(period_us)` (R77). -/
def execSetperiod (p : Period) (s : State) : Host.Outcome State Fault Refusal :=
  runCommand (setPeriodActions s.params p) s

/-- `INIT(period_us)` (R78): "exactly the effect of `SETPERIOD` and no other". -/
def execInit (p : Period) (s : State) : Host.Outcome State Fault Refusal :=
  runCommand (setPeriodActions s.params p) s

end Sys2Proof.Machine
end

