-- ==== Sys2Proof/Machine/InterruptHook.lean ====
section
/-! DEFINITION. The interrupt hook's commands (`43_interrupt_hook.md`): ATTACH R111, ATTACHP R112, DETACH R113. The
delivery itself is `State.deliverOverflow` (R116). -/

namespace Sys2Proof.Machine

/-- The actions of `ATTACH(h)`: the handle is stored before the mask is written (R111, D30). -/
def attachActions (h : Handle) : List Action := [.setHandle h, .w .imask 0xFF#8 0x01#8]

/-- The actions of `DETACH()`; the handle keeps its value (R113, D32). -/
def detachActions : List Action := [.w .imask 0xFF#8 0x00#8]

/-- `ATTACH(handle)` (R111). -/
def execAttach (h : Handle) (s : State) : Host.Outcome State Fault Refusal := runCommand (attachActions h) s

/-- `ATTACHP(handle, period_us)` (R112): SETPERIOD, for every period, then ATTACH. -/
def execAttachp (h : Handle) (p : Period) (s : State) : Host.Outcome State Fault Refusal :=
  runCommand (setPeriodActions s.params p ++ attachActions h) s

/-- `DETACH()` (R113). -/
def execDetach (s : State) : Host.Outcome State Fault Refusal := runCommand detachActions s

end Sys2Proof.Machine
end

