-- ==== Sys2Proof/Machine/Pwm.lean ====
section
/-! DEFINITION. PWM channel control (`42_pwm_channel.md`): SETPWMDUTY R102, ENPWM R103, ENPWMP R104, DISPWM R105.
Unsupported channels give no action (R106). `cfg_top` is read as it stands, also while `cfg_valid` = 0 (R95, U1). -/

namespace Sys2Proof.Machine

/-- The actions of `SETPWMDUTY(ch, duty)` against the counter-top value `top` (R102). -/
def dutyActions (top : Wide) (ch : Chan) (duty : Duty) : List Action :=
  match channelComparator ch with
  | none => []
  | some k => [.wide (.cmp k) (dutyValue top duty)]

/-- The actions of `ENPWM(ch, duty)` against `top`: mode bit, output-enable bit, pin request, duty pair (R103). -/
def enablePwmActions (top : Wide) (ch : Chan) (duty : Duty) : List Action :=
  match channelComparator ch with
  | none => []
  | some k =>
    [.w .pwmen (pwmBit k) (pwmBit k), .w .outen (outputBit ch) (outputBit ch), .pin ch] ++ dutyActions top ch duty

/-- The actions of `DISPWM(ch)` (R105). -/
def disablePwmActions (ch : Chan) : List Action :=
  match channelComparator ch with
  | none => []
  | some _ => [.w .outen (outputBit ch) 0x00#8]

/-- `SETPWMDUTY(ch, duty)` (R102). -/
def execSetpwmduty (ch : Chan) (duty : Duty) (s : State) : Host.Outcome State Fault Refusal :=
  runCommand (dutyActions s.block.cfgTop ch duty) s

/-- `ENPWM(ch, duty)` (R103). -/
def execEnpwm (ch : Chan) (duty : Duty) (s : State) : Host.Outcome State Fault Refusal :=
  runCommand (enablePwmActions s.block.cfgTop ch duty) s

/-- `ENPWMP(ch, duty, period_us)` (R104): SETPERIOD, then ENPWM "with the new cfg_top"; for an unsupported channel the
SETPERIOD part still runs. -/
def execEnpwmp (ch : Chan) (duty : Duty) (p : Period) (s : State) : Host.Outcome State Fault Refusal :=
  runCommand (setPeriodActions s.params p ++ enablePwmActions (periodTop s.params p) ch duty) s

/-- `DISPWM(ch)` (R105). -/
def execDispwm (ch : Chan) (s : State) : Host.Outcome State Fault Refusal :=
  runCommand (disablePwmActions ch) s

end Sys2Proof.Machine
end

