-- ==== Sys2Proof/Machine/RunControl.lean ====
section
/-! DEFINITION. Run control (`41_run_control.md`): START R91, STOP R92, RESTART R93, RESUME R94. Every command is
accepted in both states and does the same in both (R90, C5). `cfg_cs` is read as it stands, also while `cfg_valid` = 0,
when it is the free value drawn at reset (R95, U1; log entry 24). -/

namespace Sys2Proof.Machine

/-- The actions of `START()`, in the order of R91. -/
def startActions (cs : CsCode) : List Action :=
  [.wide .cnt 0#16, .w .ctrl 0xFF#8 0x00#8, .w .ctrl 0x3F#8 (restoreByte cs), .setRun .running]

/-- The actions of `STOP()` (R92). -/
def stopActions : List Action := [.w .ctrl 0x0F#8 0x00#8, .setRun .stopped]

/-- The actions of `RESUME()` (R94). -/
def resumeActions (cs : CsCode) : List Action := [.w .ctrl 0x3F#8 (restoreByte cs), .setRun .running]

/-- `START()` (R91). -/
def execStart (s : State) : Host.Outcome State Fault Refusal := runCommand (startActions s.block.cfgCs) s

/-- `STOP()` (R92). -/
def execStop (s : State) : Host.Outcome State Fault Refusal := runCommand stopActions s

/-- `RESTART()` (R93): "alias for `start` (always resets)". -/
def execRestart (s : State) : Host.Outcome State Fault Refusal := runCommand (startActions s.block.cfgCs) s

/-- `RESUME()` (R94). -/
def execResume (s : State) : Host.Outcome State Fault Refusal := runCommand (resumeActions s.block.cfgCs) s

end Sys2Proof.Machine
end

