-- ==== Sys2Proof/Machine/Dispatch.lean ====
section
/-! DEFINITION. exec: one arm per command, each a direct call of its meaning. -/

namespace Sys2Proof.Machine

def exec (i : Instr) (s : State) : Host.Outcome State Fault Refusal :=
  match i with
  | .init p => Sys2Proof.Machine.execInit p s
  | .setperiod p => Sys2Proof.Machine.execSetperiod p s
  | .start => Sys2Proof.Machine.execStart s
  | .stop => Sys2Proof.Machine.execStop s
  | .restart => Sys2Proof.Machine.execRestart s
  | .resume => Sys2Proof.Machine.execResume s
  | .setpwmduty ch d => Sys2Proof.Machine.execSetpwmduty ch d s
  | .enpwm ch d => Sys2Proof.Machine.execEnpwm ch d s
  | .enpwmp ch d p => Sys2Proof.Machine.execEnpwmp ch d p s
  | .dispwm ch => Sys2Proof.Machine.execDispwm ch s
  | .attach h => Sys2Proof.Machine.execAttach h s
  | .attachp h p => Sys2Proof.Machine.execAttachp h p s
  | .detach => Sys2Proof.Machine.execDetach s

end Sys2Proof.Machine
end

