-- ==== Sys2Proof/Machine/Step.lean ====
section
/-! DEFINITION. One step of the machine: the agent whose turn it is takes one step (R6). The interrupt agent and the
environment between two commands; else the command agent accepts the next word, decodes it, and executes the command
to completion (R12). -/

namespace Sys2Proof.Machine

/-- One step. A word with a reserved opcode is ignored (R54); with no word offered the command agent waits (log
entry 10). -/
def step (s : State) : Host.Outcome State Fault Refusal :=
  match s.turn with
  | .environment t => .next t
  | .command t =>
    match t.accept with
    | none => .next t
    | some (w, u) =>
      match decode w with
      | .instr i => exec i u
      | .reservedOpcode _ => .next u

/-- Offer a word as the next command and give the command agent the next turn (log entries 10 and 21). -/
def State.withFetchWord (s : State) (nbits w : Nat) : State :=
  { s with cmds := tableWord nbits w :: s.cmds, env := .proceed :: s.env }

end Sys2Proof.Machine
end

