-- ==== Sys2Proof/Safety.lean ====
section
/-! DEFINITION. What counts as a safe run, in the terms claims use: the invariants of `10_state.md` R28, the
indivisible pair of `20_memory.md` R38, what the environment may do during a command, which commands write and read
TimerConfig (R10), and the software contract of `70_reset_and_hazards.md` R142. -/

namespace Sys2Proof.Machine

/-- No reset is among the environment's coming choices (R140). -/
abbrev NoReset (env : List EnvInput) : Prop := EnvInput.reset ∉ env

/-- No overflow is among the environment's coming choices. -/
abbrev NoOverflow (env : List EnvInput) : Prop := EnvInput.overflow ∉ env

/-- Whether an input is a movement of the counter. -/
def EnvInput.isTick : EnvInput → Bool
  | .tick _ => true
  | _ => false

/-- No movement of the counter is among the environment's coming choices. -/
abbrev NoTick (env : List EnvInput) : Prop := env.all (fun x => !x.isTick) = true

/-- An event of the command agent, not a callback (R41). -/
def Event.ofCommand : Event → Bool
  | .cb _ => false
  | _ => true

/-- The events of the command agent in a trace, in order. -/
def commandEvents (es : List Event) : List Event := es.filter Event.ofCommand

/-- The first event of a `WriteWide` pair: a write of `TEMPH` (R36). -/
def Event.opensPair : Event → Bool
  | .w .temph _ _ => true
  | _ => false

/-- The second event of a `WriteWide` pair: a write of a low-byte location (R36). -/
def Event.closesPair : Event → Bool
  | .w .topl _ _ => true
  | .w .cntl _ _ => true
  | .w .cmpl0 _ _ => true
  | .w .cmpl1 _ _ => true
  | .w .cmpl2 _ _ => true
  | _ => false

/-- Every `TEMPH` write is immediately followed by a low-byte write, and every low-byte write immediately follows a
`TEMPH` write: the pair is whole, with "no other event of either agent between them" (R36, R38, R143). -/
def pairsWhole : List Event → Bool
  | [] => true
  | [e] => !e.opensPair && !e.closesPair
  | e :: f :: rest =>
    if e.closesPair then false
    else if e.opensPair then f.closesPair && pairsWhole rest
    else pairsWhole (f :: rest)

/-- A wide value that `COUNTER_BITS` bits hold (R18 to R20). -/
abbrev fits (P : Params) (v : Wide) : Prop := v.toNat < P.res

/-- Every register keeps only the bits it has (R15, R17 to R20). -/
structure RegSet.InRange (P : Params) (r : RegSet) : Prop where
  temph : r.temph.toNat < 2 ^ P.hiBits
  top : fits P r.top
  cnt : fits P r.cnt
  cmp0 : fits P r.cmp0
  cmp1 : fits P r.cmp1
  cmp2 : fits P r.cmp2

/-- The invariants of R28 (I1 to I4 and, of I5, the part that rests on no history), with the widths they rest on. -/
structure State.Inv (s : State) : Prop where
  /-- The register set keeps its widths. -/
  range : s.regs.InRange s.params
  /-- `cfg_top` has `COUNTER_BITS` bits (R10). -/
  topFits : fits s.params s.block.cfgTop
  /-- I1: a valid TimerConfig has a code of 1 to 15. -/
  codeRuns : s.block.cfgValid = true → s.block.cfgCs ≠ 0#4
  /-- I2: a valid TimerConfig's top is in `TOP`. -/
  topLatched : s.block.cfgValid = true → s.regs.top = s.block.cfgTop
  /-- I3, R114: with the mask set there is a handle. -/
  handleStored : s.regs.ovfEnabled = true → s.block.handle.isSome = true
  /-- I4: Stopped means no counting. -/
  stoppedCs : s.block.run = .stopped → s.regs.cs = 0#4
  /-- Of I5: Running means phase-and-frequency-correct counting. -/
  runningMode : s.block.run = .running → s.regs.mode = Config.modePfc

/-- `t` is `s` after a command with block state `b`, register set `r` and events `es`, whatever the environment did in
the meantime short of a reset: the interrupt agent adds callbacks and nothing else (R116), the counter may move by
itself (R19), and the environment's inputs are taken in order. -/
structure AfterCommand (s t : State) (b : Block) (r : RegSet) (es : List Event) : Prop where
  params : t.params = s.params
  cmds : t.cmds = s.cmds
  resets : t.resets = s.resets
  env : t.env <:+ s.env
  block : t.block = b
  regs : t.regs = { r with cnt := t.regs.cnt }
  /-- `CNT` is what the command left, unless the counter moved. -/
  cnt : NoTick s.env → t.regs.cnt = r.cnt
  /-- The trace grows by the command's events in their order, with callbacks among them. -/
  trace : ∃ added, t.trace = s.trace ++ added ∧ commandEvents added = es
  /-- Without an overflow there are no callbacks. -/
  traceExact : NoOverflow s.env → t.trace = s.trace ++ es

/-- `t` is `s` after a reset came during a step whose events would have been `es`: the reset state with a fresh draw,
the command in progress dropped "without emitting its remaining events" (R140). -/
structure AfterReset (s t : State) (es : List Event) : Prop where
  came : EnvInput.reset ∈ s.env
  params : t.params = s.params
  cmds : t.cmds = s.cmds
  resets : t.resets = s.resets + 1
  env : t.env <:+ s.env
  block : t.block = Block.atReset s.params (Config.resetDraw (s.resets + 1))
  regs : t.regs = RegSet.atReset s.params (Config.resetDraw (s.resets + 1))
  /-- What was emitted before the reset stays; the command's own events among it are the first few of `es`. -/
  trace : ∃ added, t.trace = s.trace ++ added ∧ commandEvents added <+: es

/-- The register set with the compare register of `k` holding `v` (R20). -/
def RegSet.withCmp (r : RegSet) : Comparator → Wide → RegSet
  | .k0, v => { r with cmp0 := v }
  | .k1, v => { r with cmp1 := v }
  | .k2, v => { r with cmp2 := v }

/-- The compare register of `k` (R20). -/
def RegSet.cmp (r : RegSet) : Comparator → Wide
  | .k0 => r.cmp0
  | .k1 => r.cmp1
  | .k2 => r.cmp2

/-- The counter-top value of a period by R70 to R74, as a number. -/
def topOf (P : Params) (p : Period) : Nat := (resolve P.res ((clockChoice P p.toNat).mult * p.toNat)).top

/-- The selector code of a period by R70 to R74. -/
def codeOf (P : Params) (p : Period) : CsCode := (resolve P.res ((clockChoice P p.toNat).mult * p.toNat)).code

/-- R77: what SETPERIOD leaves in the block state. -/
def periodBlock (P : Params) (p : Period) (b : Block) : Block :=
  { b with cfgCs := codeOf P p, cfgTop := BitVec.ofNat 16 (topOf P p), cfgValid := true }

/-- R77: what SETPERIOD leaves in the register set. -/
def periodRegs (P : Params) (p : Period) (r : RegSet) : RegSet :=
  { r with
    clksrc := (r.clksrc &&& 0xFC#8) ||| (clockChoice P p.toNat).src.code
    pllcfg := if (clockChoice P p.toNat).pllcfg then P.pllcfg96MHz else r.pllcfg
    temph := BitVec.ofNat 8 (topOf P p / 256)
    top := BitVec.ofNat 16 (topOf P p) }

/-- R77: the events of SETPERIOD, in order. -/
def periodEvents (P : Params) (p : Period) : List Event :=
  [.w .clksrc 0x03#8 (clockChoice P p.toNat).src.code]
    ++ (if (clockChoice P p.toNat).pllcfg then [.w .pllcfg 0xFF#8 P.pllcfg96MHz] else [])
    ++ [.w .temph 0xFF#8 (BitVec.ofNat 8 (topOf P p / 256)), .w .topl 0xFF#8 (BitVec.ofNat 8 (topOf P p % 256))]

/-- R102: what a duty write of the value `pd` to comparator `k` leaves in the register set. -/
def dutyRegs (k : Comparator) (pd : Nat) (r : RegSet) : RegSet :=
  RegSet.withCmp { r with temph := BitVec.ofNat 8 (pd / 256) } k (BitVec.ofNat 16 pd)

/-- R102: the events of a duty write. -/
def dutyEvents (k : Comparator) (pd : Nat) : List Event :=
  [.w .temph 0xFF#8 (BitVec.ofNat 8 (pd / 256)), .w (WideReg.cmp k).low 0xFF#8 (BitVec.ofNat 8 (pd % 256))]

/-- R103: what ENPWM leaves in the register set. -/
def enableRegs (ch : Chan) (k : Comparator) (pd : Nat) (r : RegSet) : RegSet :=
  dutyRegs k pd { r with pwmen := r.pwmen ||| (1#8 <<< k.index), outen := r.outen ||| (1#8 <<< ch.toNat) }

/-- R103: the events of ENPWM, in order. -/
def enableEvents (ch : Chan) (k : Comparator) (pd : Nat) : List Event :=
  [.w .pwmen (1#8 <<< k.index) (1#8 <<< k.index), .w .outen (1#8 <<< ch.toNat) (1#8 <<< ch.toNat), .pin ch]
    ++ dutyEvents k pd

/-- The commands that contain the period-setting operation (R10). -/
def setsPeriod : Instr → Bool
  | .init _ => true
  | .setperiod _ => true
  | .enpwmp _ _ _ => true
  | .attachp _ _ => true
  | .start => false
  | .stop => false
  | .restart => false
  | .resume => false
  | .setpwmduty _ _ => false
  | .enpwm _ _ => false
  | .dispwm _ => false
  | .attach _ => false
  | .detach => false

/-- The commands that change `run` (R13). -/
def setsRun : Instr → Bool
  | .start => true
  | .stop => true
  | .restart => true
  | .resume => true
  | .init _ => false
  | .setperiod _ => false
  | .setpwmduty _ _ => false
  | .enpwm _ _ => false
  | .enpwmp _ _ _ => false
  | .dispwm _ => false
  | .attach _ => false
  | .attachp _ _ => false
  | .detach => false

/-- The handle a command stores, if it stores one (R14). -/
def storesHandle : Instr → Option Handle
  | .attach h => some h
  | .attachp h _ => some h
  | .init _ => none
  | .setperiod _ => none
  | .start => none
  | .stop => none
  | .restart => none
  | .resume => none
  | .setpwmduty _ _ => none
  | .enpwm _ _ => none
  | .enpwmp _ _ _ => none
  | .dispwm _ => none
  | .detach => none

/-- The commands that read TimerConfig before they write it: R142 asks for `cfg_valid` = 1 before these. -/
def readsConfig : Instr → Bool
  | .start => true
  | .restart => true
  | .resume => true
  | .setpwmduty _ _ => true
  | .enpwm _ _ => true
  | .init _ => false
  | .setperiod _ => false
  | .stop => false
  | .enpwmp _ _ _ => false
  | .dispwm _ => false
  | .attach _ => false
  | .attachp _ _ => false
  | .detach => false

/-- The software contract of R142 for one command: TimerConfig is defined if the command reads it. -/
def contractMet (i : Instr) (s : State) : Bool := !readsConfig i || s.block.cfgValid

/-- The number of events of the period-setting operation (R77, R155). -/
def periodEventCount (P : Params) (p : Period) : Nat := if (clockChoice P p.toNat).pllcfg then 4 else 3

/-- The number of events of each command (R155). -/
def eventCount (P : Params) : Instr → Nat
  | .init p => periodEventCount P p
  | .setperiod p => periodEventCount P p
  | .start => 4
  | .stop => 1
  | .restart => 4
  | .resume => 1
  | .setpwmduty ch _ => if 5 < ch.toNat then 0 else 2
  | .enpwm ch _ => if 5 < ch.toNat then 0 else 5
  | .enpwmp ch _ p => periodEventCount P p + (if 5 < ch.toNat then 0 else 5)
  | .dispwm ch => if 5 < ch.toNat then 0 else 1
  | .attach _ => 1
  | .attachp _ p => periodEventCount P p + 1
  | .detach => 1

/-- The frequency of a clock source in hertz (R24, R80). -/
def sourceHz (P : Params) : ClockSource → Nat
  | .base => P.baseClockHz
  | .pllFull => Config.pllHz
  | .pllHalf => Config.pllHz / 2

/-- The divide ratio of a selector code, `2^(code-1)` (R16, R73). -/
def ratioOf (code : CsCode) : Nat := 2 ^ (code.toNat - 1)

/-- R80: the oscillation period in microseconds that the environment's counter makes of a period request: it counts to
`top` and back, at the source's frequency divided by the ratio. -/
def realizedPeriod (P : Params) (p : Nat) : ℚ :=
  2 * ratioOf (resolvePeriod P p).code * (resolvePeriod P p).top * 1000000 / sourceHz P (clockChoice P p).src

/-- `bitlen(v)`: "the number of bits needed to write `v`" (R7). -/
def bitlen (v : Nat) : Nat := if v = 0 then 0 else v.log2 + 1

end Sys2Proof.Machine
end

