-- ==== Sys2Proof/Certificates/Slice0/Obligations.lean ====
section
/-! DEFINITION. The statements about TF4CFG for the provers. A statement about a command holds for every schedule of the
environment that its hypotheses admit: `AfterCommand` says what the command does while the interrupt agent adds its
callbacks and the counter moves by itself, `AfterReset` what a reset leaves. -/

open Sys2Proof Sys2Proof.Machine

/-! ### Encoding -/

/-- R50 to R53: decoding the word of a command gives the command back, at every value of every operand. -/
def Obligations.EncodeThenDecode : Prop :=
  ∀ i : Instr, decode (encode i) = .instr i

/-- R51, R55 (a): a decoded word, encoded again, is the word with its ignored bits cleared. -/
def Obligations.DecodeThenEncodeClearsIgnoredBits : Prop :=
  ∀ (w : CmdWord) (i : Instr), decode w = .instr i → encode i = w &&& usedBits (CmdWord.op w)

/-- R55 (a): two words that agree on the bits their opcode uses mean the same. -/
def Obligations.UnusedBitsAreIgnored : Prop :=
  ∀ w v : CmdWord, w &&& usedBits (CmdWord.op w) = v &&& usedBits (CmdWord.op w) → decode v = decode w

/-- T8, T9: a few words of the spec decode as the spec says. -/
def Obligations.SpecWordsDecode : Prop :=
  decode 0x10000000000F4240#64 = .instr (.init 1000000#32) ∧
  decode 0x6000000000000000#64 = .instr .resume ∧
  decode 0x7A0003FF00000000#64 = .instr (.setpwmduty 5#3 1023#10) ∧
  decode 0x900003FF000009C4#64 = .instr (.enpwmp 0#3 1023#10 2500#32) ∧
  decode 0xA400000000000000#64 = .instr (.dispwm 2#3) ∧
  decode 0xC0001234000005DC#64 = .instr (.attachp 0x1234#16 1500#32) ∧
  decode 0x4FFFFFFFFFFFFFFF#64 = .instr .stop ∧
  decode 0xE000000000001234#64 = .reservedOpcode 14#4

/-- R60: every word has exactly one meaning, a command of its own opcode or `ignore`, and no word stops the block. -/
def Obligations.EveryWordHasOneMeaning : Prop :=
  (∀ w : CmdWord,
    ((∃ i, decode w = .instr i ∧ i.opcode = CmdWord.op w) ∧
        CmdWord.op w ≠ 0#4 ∧ CmdWord.op w ≠ 14#4 ∧ CmdWord.op w ≠ 15#4) ∨
      (decode w = .reservedOpcode (CmdWord.op w) ∧
        (CmdWord.op w = 0#4 ∨ CmdWord.op w = 14#4 ∨ CmdWord.op w = 15#4))) ∧
  (∀ s : State, ∃ t, step s = .next t)

/-! ### Stepping -/

/-- R12: when the next offered word decodes to a command, step accepts the word and is exec of the command on what is
left; `proceed` is the environment's way of letting the command agent step (log entry 5). -/
def Obligations.StepRunsTheDecodedCommand : Prop :=
  ∀ (s : State) (w : CmdWord) (ws : List CmdWord) (i : Instr), s.cmds = w :: ws → decode w = .instr i →
    (s.env = [] → step s = exec i { s with cmds := ws }) ∧
    (∀ e, s.env = .proceed :: e → step s = exec i { s with cmds := ws, env := e })

/-- R12, R50: the word of a command, offered next, is run by the very next step, from any state. -/
def Obligations.OfferedCommandRunsNext : Prop :=
  ∀ (s : State) (i : Instr), step (s.withFetchWord 64 (encode i).toNat) = exec i s

/-- R54: a word with a reserved opcode is accepted and does nothing else, the all-zero word among them. -/
def Obligations.ReservedOpcodesAreIgnored : Prop :=
  (∀ (s t : State) (w : CmdWord) (ws : List CmdWord), s.turn = .command t → t.cmds = w :: ws →
    (CmdWord.op w = 0#4 ∨ CmdWord.op w = 14#4 ∨ CmdWord.op w = 15#4) → step s = .next { t with cmds := ws }) ∧
  (∀ (s : State) (ws : List CmdWord), s.env = [] → s.cmds = 0#64 :: ws → step s = .next { s with cmds := ws })

/-- The model's choice (log entry 10): with nothing offered and nothing from the environment, a step changes nothing. -/
def Obligations.NothingOfferedNothingHappens : Prop :=
  ∀ s : State, s.env = [] → s.cmds = [] → step s = .next s

/-- R59: in the inert unit every command is ignored, and the interrupt agent never steps. That an offered word is taken
off the port all the same is the model's choice (log entry 17); after a `proceed` of the environment the first clause
says what the word's command does. -/
def Obligations.InertUnitIgnoresEverything : Prop :=
  ∀ s : State, s.params.variantPresent = false →
    (∀ i, exec i s = .next s) ∧
    (∀ w ws, s.env = [] → s.cmds = w :: ws → step s = .next { s with cmds := ws }) ∧
    (∀ e, s.env = .overflow :: e → step s = .next { s with env := e })

/-! ### The environment between two commands -/

/-- R116, R125: an overflow while the mask is set emits `CB(h)` with the stored handle and changes nothing else; while
the mask is clear it leaves no trace. -/
def Obligations.OverflowDeliversTheHandle : Prop :=
  ∀ (s : State) (e : List EnvInput), s.params.variantPresent = true → s.env = .overflow :: e →
    (∀ h, s.regs.imask.getLsbD 0 = true → s.block.handle = some h →
      step s = .next { s with env := e, trace := s.trace ++ [.cb h] }) ∧
    (s.regs.imask.getLsbD 0 = false → step s = .next { s with env := e })

/-- R19, R130 (the model's form of it is log entry 8): between writes the counter changes by itself while `CTRL.cs` is
not 0, and holds while it is 0. -/
def Obligations.CounterMovesOnlyWhileClocked : Prop :=
  ∀ (s : State) (v : Wide) (e : List EnvInput), s.env = .tick v :: e →
    (s.regs.ctrl.extractLsb' 0 4 = 0#4 → step s = .next { s with env := e }) ∧
    (s.regs.ctrl.extractLsb' 0 4 ≠ 0#4 → v.toNat < 2 ^ s.params.counterBits.bits →
      step s = .next { s with env := e, regs := { s.regs with cnt := v } })

/-- R27, R140: the reset input gives the reset state and emits nothing. Which values the unspecified fields take is the
model's free draw (log entries 4 and 9) and is not stated here. -/
def Obligations.ResetInputGivesTheResetState : Prop :=
  ∀ (s : State) (e : List EnvInput), s.env = .reset :: e →
    ∃ t, step s = .next t ∧ t.block.run = .stopped ∧ t.block.cfgValid = false ∧ t.block.handle = none ∧
      t.regs.ctrl.extractLsb' 0 4 = 0#4 ∧ t.regs.imask.getLsbD 0 = false ∧
      t.trace = s.trace ∧ t.params = s.params ∧ t.cmds = s.cmds ∧ t.env = e

/-! ### Reset -/

/-- R27, R141: what the spec fixes of the state after reset; R4: the default parameters. -/
def Obligations.ResetStateAsSpecified : Prop :=
  State.reset.block.run = .stopped ∧ State.reset.block.cfgValid = false ∧ State.reset.block.handle = none ∧
  State.reset.regs.ctrl.extractLsb' 0 4 = 0#4 ∧ State.reset.regs.imask.getLsbD 0 = false ∧
  State.reset.trace = [] ∧
  State.reset.params.variantPresent = true ∧ State.reset.params.counterBits.bits = 10 ∧
  State.reset.params.baseClockHz = 16000000 ∧ State.reset.params.pllcfgInHalfBranch = false

/-- R28: the invariants (I1 to I4, and the mode of I5) hold at reset. -/
def Obligations.InvariantsHoldAtReset : Prop := State.reset.Inv

/-- R36, R38: at reset no pair is broken, and no reset is to come. -/
def Obligations.PairsAreWholeAtReset : Prop :=
  NoReset State.reset.env ∧ pairsWhole State.reset.trace = true

/-! ### Whole-machine rules -/

/-- R28 (I1 to I4, and of I5 that a running counter counts in the mode `MODE_PFC`), R114: every step keeps the
invariants, from every state that has them. -/
def Obligations.EveryStepKeepsTheInvariants : Prop :=
  ∀ s t : State, s.Inv → step s = .next t → t.Inv

/-- R36, R38, R143, R144: every step keeps the pairs of the trace whole: no event of either agent between the `TEMPH`
write and the low-byte write, and no low-byte write without its `TEMPH` write. A reset inside a pair breaks it (R140),
so the premise admits none. -/
def Obligations.EveryStepKeepsPairsWhole : Prop :=
  ∀ s t : State, NoReset s.env → pairsWhole s.trace = true → step s = .next t →
    NoReset t.env ∧ pairsWhole t.trace = true

/-- R4: the parameters are immutable. -/
def Obligations.NoStepChangesTheParameters : Prop :=
  ∀ s t : State, step s = .next t → t.params = s.params

/-- R5, R41: a step only appends to the trace, and takes the environment's inputs in their order. -/
def Obligations.EveryStepExtendsTheTrace : Prop :=
  ∀ s t : State, step s = .next t → s.trace <+: t.trace ∧ t.env <:+ s.env

/-- R41, R116, R140: whatever the environment does during a command, the command has exactly the effect it has when the
environment does nothing, or a reset came and dropped it after the first few of its events. -/
def Obligations.EnvironmentOnlyInterleavesOrResets : Prop :=
  ∀ (i : Instr) (s t u : State) (es : List Event), s.params.variantPresent = true →
    exec i { s with env := [] } = .next u → u.trace = s.trace ++ es → exec i s = .next t →
    AfterCommand s t u.block u.regs es ∨ AfterReset s t es

/-- R33: a command reads no register: its block state and its own events do not depend on the register set. -/
def Obligations.CommandsNeverReadTheRegisterSet : Prop :=
  ∀ (i : Instr) (s t : State) (r : RegSet), NoReset s.env → exec i s = .next t →
    ∃ t', exec i { s with regs := r } = .next t' ∧ t'.block = t.block ∧
      commandEvents t'.trace = commandEvents t.trace

/-- R13: no command's behaviour depends on `run`. -/
def Obligations.NoCommandReadsRun : Prop :=
  ∀ (i : Instr) (s t : State) (q : RunState), s.env = [] → exec i s = .next t →
    ∃ t', exec i { s with block := { s.block with run := q } } = .next t' ∧ t'.regs = t.regs ∧ t'.trace = t.trace ∧
      t'.block.cfgCs = t.block.cfgCs ∧ t'.block.cfgTop = t.block.cfgTop ∧ t'.block.cfgValid = t.block.cfgValid ∧
      t'.block.handle = t.block.handle

/-- R116: while the mask is clear and the command does not attach, nothing is delivered during it. -/
def Obligations.MaskedOverflowsAreLost : Prop :=
  ∀ (i : Instr) (s t : State) (es : List Event), s.regs.imask.getLsbD 0 = false → storesHandle i = none →
    exec i s = .next t → t.trace = s.trace ++ es → commandEvents es = es

/-- R116, R125: a callback during a command carries the handle stored before it, or the one the command attaches. -/
def Obligations.CallbacksCarryTheStoredHandle : Prop :=
  ∀ (i : Instr) (s t : State) (es : List Event) (h : Handle), exec i s = .next t → t.trace = s.trace ++ es →
    Event.cb h ∈ es → s.block.handle = some h ∨ storesHandle i = some h

/-! ### Who writes what -/

/-- R10: TimerConfig is written only by the period-setting operation. -/
def Obligations.ConfigWrittenOnlyByPeriodSetting : Prop :=
  ∀ (i : Instr) (s t : State), setsPeriod i = false → NoReset s.env → exec i s = .next t →
    t.block.cfgCs = s.block.cfgCs ∧ t.block.cfgTop = s.block.cfgTop ∧ t.block.cfgValid = s.block.cfgValid

/-- R13, R14: `run` is a side effect of run control only, and the handle of ATTACH and ATTACHP only; DETACH leaves it
unchanged. -/
def Obligations.RunAndHandleWriters : Prop :=
  ∀ (i : Instr) (s t : State), NoReset s.env → exec i s = .next t →
    (setsRun i = false → t.block.run = s.block.run) ∧ (storesHandle i = none → t.block.handle = s.block.handle)

/-- R16, R18, R19, R21 to R25: each register is written only by the commands its rule names; `CNT` also moves by
itself. -/
def Obligations.RegistersWrittenOnlyByTheirCommands : Prop :=
  ∀ (i : Instr) (s t : State), NoReset s.env → exec i s = .next t →
    (setsPeriod i = false →
      t.regs.top = s.regs.top ∧ t.regs.clksrc = s.regs.clksrc ∧ t.regs.pllcfg = s.regs.pllcfg) ∧
    (setsRun i = false → t.regs.ctrl = s.regs.ctrl) ∧
    (i ≠ .start → i ≠ .restart → NoTick s.env → t.regs.cnt = s.regs.cnt) ∧
    ((∀ h, i ≠ .attach h) → (∀ h p, i ≠ .attachp h p) → i ≠ .detach → t.regs.imask = s.regs.imask) ∧
    ((∀ ch d, i ≠ .enpwm ch d) → (∀ ch d p, i ≠ .enpwmp ch d p) →
      t.regs.pwmen = s.regs.pwmen ∧
      ((∀ ch, i ≠ .dispwm ch) → t.regs.outen = s.regs.outen) ∧
      ((∀ ch d, i ≠ .setpwmduty ch d) → ∀ k, t.regs.cmp k = s.regs.cmp k))

/-- R22, R23, R24: the reserved bits of OUTEN, PWMEN and CLKSRC are never written. -/
def Obligations.ReservedBitsAreNeverWritten : Prop :=
  ∀ (i : Instr) (s t : State), NoReset s.env → exec i s = .next t →
    t.regs.outen &&& 0xC0#8 = s.regs.outen &&& 0xC0#8 ∧
    t.regs.pwmen &&& 0xF8#8 = s.regs.pwmen &&& 0xF8#8 ∧
    t.regs.clksrc &&& 0xFC#8 = s.regs.clksrc &&& 0xFC#8

/-- R16, R21, R24, R31, R156: what the block never emits: a pin request for an unsupported channel, a latch or low-byte
write with another mask than 0xFF, a reserved counting mode, the reserved clock source, a reserved bit of `IMASK`. -/
def Obligations.EmittedEventsAreLegal : Prop :=
  ∀ (i : Instr) (s t : State) (es : List Event), exec i s = .next t → t.trace = s.trace ++ es →
    (∀ ch, Event.pin ch ∈ es → ch.toNat ≤ 5) ∧
    (∀ reg m d, Event.w reg m d ∈ es →
      ((Event.w reg m d).opensPair = true ∨ (Event.w reg m d).closesPair = true) → m = 0xFF#8) ∧
    (∀ m d, Event.w .ctrl m d ∈ es → d &&& 0xE0#8 = 0x00#8) ∧
    (∀ m d, Event.w .clksrc m d ∈ es → m = 0x03#8 ∧ d.toNat ≤ 2) ∧
    (∀ m d, Event.w .imask m d ∈ es → m = 0xFF#8 ∧ d.toNat ≤ 1)

/-! ### The register set -/

/-- R31: what `W(reg, mask, data)` changes, location by location; it changes nothing else. -/
def Obligations.WriteChangesOneRegister : Prop :=
  ∀ (P : Params) (r : RegSet) (m d : Byte),
    r.write P .ctrl m d = { r with ctrl := (r.ctrl &&& ~~~m) ||| (d &&& m) } ∧
    r.write P .imask m d = { r with imask := (r.imask &&& ~~~m) ||| (d &&& m) } ∧
    r.write P .outen m d = { r with outen := (r.outen &&& ~~~m) ||| (d &&& m) } ∧
    r.write P .pwmen m d = { r with pwmen := (r.pwmen &&& ~~~m) ||| (d &&& m) } ∧
    r.write P .clksrc m d = { r with clksrc := (r.clksrc &&& ~~~m) ||| (d &&& m) } ∧
    r.write P .pllcfg m d = { r with pllcfg := (r.pllcfg &&& ~~~m) ||| (d &&& m) } ∧
    r.write P .temph 0xFF#8 d = { r with temph := BitVec.ofNat 8 (d.toNat % 2 ^ P.hiBits) } ∧
    r.write P .topl 0xFF#8 d = { r with top := BitVec.ofNat 16 (r.temph.toNat * 256 + d.toNat) } ∧
    r.write P .cntl 0xFF#8 d = { r with cnt := BitVec.ofNat 16 (r.temph.toNat * 256 + d.toNat) } ∧
    r.write P .cmpl0 0xFF#8 d = { r with cmp0 := BitVec.ofNat 16 (r.temph.toNat * 256 + d.toNat) } ∧
    r.write P .cmpl1 0xFF#8 d = { r with cmp1 := BitVec.ofNat 16 (r.temph.toNat * 256 + d.toNat) } ∧
    r.write P .cmpl2 0xFF#8 d = { r with cmp2 := BitVec.ofNat 16 (r.temph.toNat * 256 + d.toNat) }

/-- R36: `WriteWide(regL, v)` for `v < RES` is two events, always both, and leaves `v` in the target and `v >> 8` in
`TEMPH`; no other register changes, but for a counter that moves by itself. -/
def Obligations.WriteWideLatchesTheValue : Prop :=
  ∀ (s : State) (reg : WideReg) (v : Wide), NoReset s.env → v.toNat < s.params.res →
    ∃ t, s.writeWide reg v = .go t ∧
      t.trace = s.trace ++ [.w .temph 0xFF#8 (BitVec.ofNat 8 (v.toNat / 256)),
        .w reg.low 0xFF#8 (BitVec.ofNat 8 (v.toNat % 256))] ∧
      t.regs.wideValue reg = v ∧ t.regs.temph.toNat = v.toNat / 256 ∧ t.block = s.block ∧
      (∀ reg', reg' ≠ reg → (reg' = .cnt → NoTick s.env) → t.regs.wideValue reg' = s.regs.wideValue reg') ∧
      t.regs.ctrl = s.regs.ctrl ∧ t.regs.imask = s.regs.imask ∧ t.regs.outen = s.regs.outen ∧
      t.regs.pwmen = s.regs.pwmen ∧ t.regs.clksrc = s.regs.clksrc ∧ t.regs.pllcfg = s.regs.pllcfg

/-- R39: repeating a write changes nothing more, but repeating a low-byte write after `TEMPH` changed gives a different
wide value. -/
def Obligations.WritesAreIdempotentButForTheLatch : Prop :=
  (∀ (P : Params) (r : RegSet) (reg : Reg) (m d : Byte), (r.write P reg m d).write P reg m d = r.write P reg m d) ∧
  (∀ (P : Params) (r : RegSet) (reg : WideReg) (d x : Byte), x.toNat < 2 ^ P.hiBits → x ≠ r.temph →
    (((r.write P reg.low 0xFF#8 d).write P .temph 0xFF#8 x).write P reg.low 0xFF#8 d).wideValue reg
      ≠ (r.write P reg.low 0xFF#8 d).wideValue reg)

/-! ### The period resolver -/

/-- R71: the three bands, their edges, their multipliers, and the PLL configuration write. -/
def Obligations.ClockChoiceBands : Prop :=
  ∀ (P : Params) (p : Nat),
    (p < 1000 → clockChoice P p = ⟨.pllFull, 48, true⟩) ∧
    (1000 ≤ p → p < 2000 → clockChoice P p = ⟨.pllHalf, 24, P.pllcfgInHalfBranch⟩) ∧
    (2000 ≤ p → clockChoice P p = ⟨.base, P.baseClockHz / 2000000, false⟩)

/-- R73: fifteen rows, ratio `2^i` with code `i + 1`. -/
def Obligations.PrescalerTableRows : Prop :=
  prescalerTable.length = 15 ∧
  ∀ i, i < 15 → prescalerTable[i]? = some ⟨2 ^ i, BitVec.ofNat 4 (i + 1)⟩

/-- R74: the first row whose `RES * ratio` exceeds `cycles` is taken, the comparison strict and the division truncating;
with no such row, the largest code and `RES - 1`. -/
def Obligations.ResolveTakesTheFirstFittingTier : Prop :=
  ∀ res n : Nat,
    (∀ i, i < 15 → res * 2 ^ i > n → (∀ j, j < i → ¬ res * 2 ^ j > n) →
      resolve res n = ⟨BitVec.ofNat 4 (i + 1), n / 2 ^ i, false⟩) ∧
    ((∀ i, i < 15 → ¬ res * 2 ^ i > n) → resolve res n = ⟨15#4, res - 1, true⟩)

/-- R75: the closed form, a leading-one detector and a right shifter, gives the same for every `cycles`. -/
def Obligations.ResolveClosedForm : Prop :=
  ∀ (P : Params) (n : Nat),
    resolve P.res n =
      if bitlen n - P.counterBits.bits ≤ 14
      then ⟨BitVec.ofNat 4 (bitlen n - P.counterBits.bits + 1), n >>> (bitlen n - P.counterBits.bits), false⟩
      else ⟨15#4, P.res - 1, true⟩

/-- R76: the laws L1 to L7 of the resolver. -/
def Obligations.ResolverLaws : Prop :=
  ∀ (P : Params) (n : Nat),
    (1 ≤ (resolve P.res n).code.toNat ∧ (resolve P.res n).code.toNat ≤ 15) ∧
    (resolve P.res n).top ≤ P.res - 1 ∧
    ((resolve P.res n).saturated = false →
      n / 2 ^ ((resolve P.res n).code.toNat - 1) ≤ P.res - 1 ∧
      ∀ j, j < 15 → n / 2 ^ j ≤ P.res - 1 → (resolve P.res n).code.toNat - 1 ≤ j) ∧
    ((resolve P.res n).saturated = false →
      2 ^ ((resolve P.res n).code.toNat - 1) * (resolve P.res n).top ≤ n ∧
      n - 2 ^ ((resolve P.res n).code.toNat - 1) * (resolve P.res n).top
        < 2 ^ ((resolve P.res n).code.toNat - 1)) ∧
    ((resolve P.res n).saturated = false → 2 ≤ (resolve P.res n).code.toNat →
      P.res / 2 ≤ (resolve P.res n).top) ∧
    ((resolve P.res n).saturated = true ↔ P.res * 16384 ≤ n) ∧
    (∀ m, n ≤ m → (resolve P.res n).saturated = false → (resolve P.res m).saturated = false →
      2 ^ ((resolve P.res n).code.toNat - 1) * (resolve P.res n).top
        ≤ 2 ^ ((resolve P.res m).code.toNat - 1) * (resolve P.res m).top)

/-- R79 (d), (e), (g): a period below 2000 never saturates; one of 2000 or more saturates exactly when its exact tick
count reaches `RES * 16384`, and then the longest period is taken. -/
def Obligations.SaturationOfPeriods : Prop :=
  ∀ (P : Params) (p : Nat),
    (p < 2000 → (resolvePeriod P p).saturated = false) ∧
    (2000 ≤ p → ((resolvePeriod P p).saturated = true ↔ P.res * 16384 ≤ P.baseClockHz / 2000000 * p)) ∧
    ((resolvePeriod P p).saturated = true → (resolvePeriod P p).code = 15#4 ∧ (resolvePeriod P p).top = P.res - 1)

/-- R80: with a base clock that is a multiple of 2 MHz the realized period is `ratio * top / M` microseconds; unless
saturated it is at most the requested one and short of it by less than `ratio / M`. -/
def Obligations.RealizedPeriodIsWithinOneTick : Prop :=
  ∀ (P : Params) (p : Nat), 0 < P.baseClockHz → 2000000 ∣ P.baseClockHz →
    realizedPeriod P p = (ratioOf (resolvePeriod P p).code * (resolvePeriod P p).top : ℚ) / (clockChoice P p).mult ∧
    ((resolvePeriod P p).saturated = false →
      realizedPeriod P p ≤ p ∧
      (p : ℚ) - realizedPeriod P p < (ratioOf (resolvePeriod P p).code : ℚ) / (clockChoice P p).mult)

/-- R101: duty scaling and its laws (a) to (e). -/
def Obligations.PhysDutyLaws : Prop :=
  ∀ top duty : Nat, duty ≤ 1023 →
    physDuty top duty = top * duty / 1024 ∧
    physDuty top 0 = 0 ∧
    physDuty top duty ≤ top ∧ (0 < top → physDuty top duty < top) ∧
    physDuty top 1023 = top - (top + 1023) / 1024 ∧ (1 ≤ top → top ≤ 1024 → physDuty top 1023 = top - 1) ∧
    (∀ duty', duty ≤ duty' → physDuty top duty ≤ physDuty top duty') ∧
    (∀ top', top ≤ top' → physDuty top duty ≤ physDuty top' duty) ∧
    physDuty top 512 = top >>> 1

/-! ### The commands: each completes, with this effect

`AfterCommand` and `AfterReset` speak of the model's own fields `env`, `cmds` and `resets` too (log entries 4, 5, 10):
those clauses are the model's bookkeeping, not rules of the spec. The premise that the unit is present is R59's, the
premise that no reset comes is R140's. Each statement's first clause is the encoding its rule names. -/

/-- R77, R78: SETPERIOD, and INIT with exactly its effect: TimerConfig, the clock source, the PLL configuration when due,
and the top value latched; `CTRL` and `run` are left alone (R147). `topOf`, `codeOf` and the three descriptions
`periodBlock`, `periodRegs`, `periodEvents` are in Safety. -/
def Obligations.SetPeriodCompletes : Prop :=
  (∀ w : CmdWord, CmdWord.op w = 1#4 → decode w = .instr (.init (CmdWord.period w))) ∧
  (∀ w : CmdWord, CmdWord.op w = 2#4 → decode w = .instr (.setperiod (CmdWord.period w))) ∧
  (Written.init none).toInstr = .init 1000000#32 ∧
  ∀ (s : State) (p : Period) (i : Instr), i = .setperiod p ∨ i = .init p →
    s.params.variantPresent = true → NoReset s.env →
    ∃ t, exec i s = .next t ∧
      AfterCommand s t (periodBlock s.params p s.block) (periodRegs s.params p s.regs) (periodEvents s.params p)

/-- R91, R93: START and RESTART reset the counter, clear CTRL, then restore mode and the stored code; TEMPH ends 0. -/
def Obligations.StartCompletes : Prop :=
  (∀ w : CmdWord, CmdWord.op w = 3#4 → decode w = .instr .start) ∧
  (∀ w : CmdWord, CmdWord.op w = 5#4 → decode w = .instr .restart) ∧
  ∀ (s : State) (i : Instr), i = .start ∨ i = .restart → s.params.variantPresent = true → NoReset s.env →
    ∃ t, exec i s = .next t ∧
      AfterCommand s t { s.block with run := .running }
        { s.regs with temph := 0x00#8, cnt := 0#16, ctrl := 0x10#8 ||| s.block.cfgCs.setWidth 8 }
        [.w .temph 0xFF#8 0x00#8, .w .cntl 0xFF#8 0x00#8, .w .ctrl 0xFF#8 0x00#8,
          .w .ctrl 0x3F#8 (0x10#8 ||| s.block.cfgCs.setWidth 8)]

/-- R92: STOP zeroes the clock-select bits and nothing else of the register set. -/
def Obligations.StopCompletes : Prop :=
  (∀ w : CmdWord, CmdWord.op w = 4#4 → decode w = .instr .stop) ∧
  ∀ s : State, s.params.variantPresent = true → NoReset s.env →
    ∃ t, exec .stop s = .next t ∧
      AfterCommand s t { s.block with run := .stopped } { s.regs with ctrl := s.regs.ctrl &&& 0xF0#8 }
        [.w .ctrl 0x0F#8 0x00#8]

/-- R94: RESUME re-applies the stored code and the mode; CTRL bits 7:6 and the counter are left alone. -/
def Obligations.ResumeCompletes : Prop :=
  (∀ w : CmdWord, CmdWord.op w = 6#4 → decode w = .instr .resume) ∧
  ∀ s : State, s.params.variantPresent = true → NoReset s.env →
    ∃ t, exec .resume s = .next t ∧
      AfterCommand s t { s.block with run := .running }
        { s.regs with ctrl := (s.regs.ctrl &&& 0xC0#8) ||| (0x10#8 ||| s.block.cfgCs.setWidth 8) }
        [.w .ctrl 0x3F#8 (0x10#8 ||| s.block.cfgCs.setWidth 8)]

/-- R102: SETPWMDUTY on a supported channel writes the scaled duty to the compare register of its comparator
`k = ch >> 1` and touches no block state; on any other channel it is ignored. The premise on `cfg_top` is part of the
invariants. -/
def Obligations.SetPwmDutyCompletes : Prop :=
  (∀ w : CmdWord, CmdWord.op w = 7#4 → decode w = .instr (.setpwmduty (CmdWord.ch w) (CmdWord.duty w))) ∧
  (∀ (s : State) (ch : Chan) (d : Duty), 5 < ch.toNat → exec (.setpwmduty ch d) s = .next s) ∧
  ∀ (s : State) (ch : Chan) (d : Duty) (k : Comparator), s.params.variantPresent = true → NoReset s.env →
    k.index = ch.toNat / 2 → s.block.cfgTop.toNat < s.params.res →
    ∃ t, exec (.setpwmduty ch d) s = .next t ∧
      AfterCommand s t s.block (dutyRegs k (s.block.cfgTop.toNat * d.toNat / 1024) s.regs)
        (dutyEvents k (s.block.cfgTop.toNat * d.toNat / 1024))

/-- R103: ENPWM on a supported channel sets the mode bit and the output-enable bit, asks for the pin, and writes the
scaled duty, in that order; on any other channel it is ignored. -/
def Obligations.EnablePwmCompletes : Prop :=
  (∀ w : CmdWord, CmdWord.op w = 8#4 → decode w = .instr (.enpwm (CmdWord.ch w) (CmdWord.duty w))) ∧
  (∀ (s : State) (ch : Chan) (d : Duty), 5 < ch.toNat → exec (.enpwm ch d) s = .next s) ∧
  ∀ (s : State) (ch : Chan) (d : Duty) (k : Comparator), s.params.variantPresent = true → NoReset s.env →
    k.index = ch.toNat / 2 → s.block.cfgTop.toNat < s.params.res →
    ∃ t, exec (.enpwm ch d) s = .next t ∧
      AfterCommand s t s.block (enableRegs ch k (s.block.cfgTop.toNat * d.toNat / 1024) s.regs)
        (enableEvents ch k (s.block.cfgTop.toNat * d.toNat / 1024))

/-- R104: ENPWMP on a supported channel is the period part and then the PWM part with the new top value; on any other
channel it is the period part alone. -/
def Obligations.EnablePwmPeriodCompletes : Prop :=
  (∀ w : CmdWord, CmdWord.op w = 9#4 →
    decode w = .instr (.enpwmp (CmdWord.ch w) (CmdWord.duty w) (CmdWord.period w))) ∧
  (∀ (s : State) (ch : Chan) (d : Duty) (p : Period), 5 < ch.toNat →
    exec (.enpwmp ch d p) s = exec (.setperiod p) s) ∧
  ∀ (s : State) (ch : Chan) (d : Duty) (p : Period) (k : Comparator), s.params.variantPresent = true →
    NoReset s.env → k.index = ch.toNat / 2 →
    ∃ t, exec (.enpwmp ch d p) s = .next t ∧
      AfterCommand s t (periodBlock s.params p s.block)
        (enableRegs ch k (topOf s.params p * d.toNat / 1024) (periodRegs s.params p s.regs))
        (periodEvents s.params p ++ enableEvents ch k (topOf s.params p * d.toNat / 1024))

/-- R105: DISPWM on a supported channel clears its output-enable bit and nothing else; on any other channel it is
ignored. -/
def Obligations.DisablePwmCompletes : Prop :=
  (∀ w : CmdWord, CmdWord.op w = 10#4 → decode w = .instr (.dispwm (CmdWord.ch w))) ∧
  (∀ (s : State) (ch : Chan), 5 < ch.toNat → exec (.dispwm ch) s = .next s) ∧
  ∀ (s : State) (ch : Chan), s.params.variantPresent = true → NoReset s.env → ch.toNat ≤ 5 →
    ∃ t, exec (.dispwm ch) s = .next t ∧
      AfterCommand s t s.block { s.regs with outen := s.regs.outen &&& ~~~(1#8 <<< ch.toNat) }
        [.w .outen (1#8 <<< ch.toNat) 0x00#8]

/-- R106, R55 (b): channels 6 and 7 are ignored: no event, no state change; of ENPWMP only the channel part. -/
def Obligations.UnsupportedChannelsAreIgnored : Prop :=
  ∀ (s : State) (ch : Chan) (d : Duty) (p : Period), 5 < ch.toNat →
    exec (.setpwmduty ch d) s = .next s ∧ exec (.enpwm ch d) s = .next s ∧ exec (.dispwm ch) s = .next s ∧
    exec (.enpwmp ch d p) s = exec (.setperiod p) s

/-- R111: ATTACH stores the handle and sets the mask, the whole register. -/
def Obligations.AttachCompletes : Prop :=
  (∀ w : CmdWord, CmdWord.op w = 11#4 → decode w = .instr (.attach (CmdWord.handle w))) ∧
  ∀ (s : State) (h : Handle), s.params.variantPresent = true → NoReset s.env →
    ∃ t, exec (.attach h) s = .next t ∧
      AfterCommand s t { s.block with handle := some h } { s.regs with imask := 0x01#8 } [.w .imask 0xFF#8 0x01#8]

/-- R112: ATTACHP is the period part, for every period, and then ATTACH. -/
def Obligations.AttachPeriodCompletes : Prop :=
  (∀ w : CmdWord, CmdWord.op w = 12#4 → decode w = .instr (.attachp (CmdWord.handle w) (CmdWord.period w))) ∧
  ∀ (s : State) (h : Handle) (p : Period), s.params.variantPresent = true → NoReset s.env →
    ∃ t, exec (.attachp h p) s = .next t ∧
      AfterCommand s t { periodBlock s.params p s.block with handle := some h }
        { periodRegs s.params p s.regs with imask := 0x01#8 }
        (periodEvents s.params p ++ [.w .imask 0xFF#8 0x01#8])

/-- R113: DETACH clears the mask, the whole register, and keeps the handle. -/
def Obligations.DetachCompletes : Prop :=
  (∀ w : CmdWord, CmdWord.op w = 13#4 → decode w = .instr .detach) ∧
  ∀ s : State, s.params.variantPresent = true → NoReset s.env →
    ∃ t, exec .detach s = .next t ∧
      AfterCommand s t s.block { s.regs with imask := 0x00#8 } [.w .imask 0xFF#8 0x00#8]

/-- R155: the number of events of each command, with no callback counted; every command completes. -/
def Obligations.EventCountsAreExact : Prop :=
  ∀ (i : Instr) (s : State), s.params.variantPresent = true → NoReset s.env →
    ∃ t es, exec i s = .next t ∧ t.trace = s.trace ++ es ∧
      (commandEvents es).length = eventCount s.params i

/-! ### Sequences -/

/-- R58: `INIT()` stands for `INIT(1000000)`; RESTART is START; ENPWMP and ATTACHP are SETPERIOD followed by ENPWM or
ATTACH (compared with the environment silent; between two commands it has one more turn). -/
def Obligations.PseudoForms : Prop :=
  (Written.init none).toInstr = .init 1000000#32 ∧
  (∀ s, exec .restart s = exec .start s) ∧
  (∀ (s : State) (ch : Chan) (d : Duty) (h : Handle) (p : Period), s.env = [] →
    ∃ t u v, exec (.setperiod p) s = .next t ∧
      exec (.enpwm ch d) t = .next u ∧ exec (.enpwmp ch d p) s = .next u ∧
      exec (.attach h) t = .next v ∧ exec (.attachp h p) s = .next v)

/-- R96: STOP then RESUME emits its two CTRL writes, writes no wide register, and changes no block state but `run`. -/
def Obligations.StopThenResume : Prop :=
  ∀ s : State, s.params.variantPresent = true → NoReset s.env → s.block.cfgValid = true →
    ∃ t u, exec .stop s = .next t ∧ exec .resume t = .next u ∧
      AfterCommand s u { s.block with run := .running }
        { s.regs with ctrl := (s.regs.ctrl &&& 0xC0#8) ||| (0x10#8 ||| s.block.cfgCs.setWidth 8) }
        [.w .ctrl 0x0F#8 0x00#8, .w .ctrl 0x3F#8 (0x10#8 ||| s.block.cfgCs.setWidth 8)]

/-- R107: after DISPWM the duty and period state stand, and enabling again gives the register set of the first enable. -/
def Obligations.DisableThenEnableAgain : Prop :=
  ∀ (s : State) (ch : Chan) (d : Duty), s.params.variantPresent = true → NoReset s.env → ch.toNat ≤ 5 →
    s.block.cfgTop.toNat < s.params.res →
    ∃ t u v, exec (.enpwm ch d) s = .next t ∧ exec (.dispwm ch) t = .next u ∧ exec (.enpwm ch d) u = .next v ∧
      v.regs = { t.regs with cnt := v.regs.cnt } ∧
      (∀ k, u.regs.cmp k = t.regs.cmp k) ∧ u.regs.top = t.regs.top ∧ u.regs.pwmen = t.regs.pwmen ∧
      u.block = t.block
end

