-- ==== Sys2Proof/Laws/Encoding.lean ====
section
/-! SUPPORT. The fields of a packed command word (`30_encoding.md` R50): each field is read back as it was packed. -/

namespace Sys2Proof

section

variable (op : BitVec 4) (ch : Chan) (arg : BitVec 16) (p : Period)

/-- The word as a number. -/
theorem packWord_toNat : (packWord op ch arg p).toNat
    = op.toNat * 2 ^ 60 + ch.toNat * 2 ^ 57 + arg.toNat * 2 ^ 32 + p.toNat := by
  show (op ++ ch ++ 0#9 ++ arg ++ p).toNat = _
  have := op.isLt
  have := ch.isLt
  have := arg.isLt
  have := p.isLt
  rw [BitVec.toNat_append, Nat.shiftLeft_eq, Nat.mul_comm, ← Nat.two_pow_add_eq_or_of_lt p.isLt,
    BitVec.toNat_append, Nat.shiftLeft_eq, Nat.mul_comm (_ : Nat) (2 ^ 16), ← Nat.two_pow_add_eq_or_of_lt arg.isLt,
    BitVec.toNat_append, Nat.shiftLeft_eq, Nat.mul_comm (_ : Nat) (2 ^ 9),
    ← Nat.two_pow_add_eq_or_of_lt (0#9).isLt,
    BitVec.toNat_append, Nat.shiftLeft_eq, Nat.mul_comm (_ : Nat) (2 ^ 3), ← Nat.two_pow_add_eq_or_of_lt ch.isLt]
  simp
  omega

theorem packWord_op : CmdWord.op (packWord op ch arg p) = op := by
  have := op.isLt
  have := ch.isLt
  have := arg.isLt
  have := p.isLt
  apply BitVec.eq_of_toNat_eq
  rw [CmdWord.op, BitVec.extractLsb'_toNat, packWord_toNat, Nat.shiftRight_eq_div_pow]
  omega

theorem packWord_ch : CmdWord.ch (packWord op ch arg p) = ch := by
  have := op.isLt
  have := ch.isLt
  have := arg.isLt
  have := p.isLt
  apply BitVec.eq_of_toNat_eq
  rw [CmdWord.ch, BitVec.extractLsb'_toNat, packWord_toNat, Nat.shiftRight_eq_div_pow]
  omega

theorem packWord_handle : CmdWord.handle (packWord op ch arg p) = arg := by
  have := op.isLt
  have := ch.isLt
  have := arg.isLt
  have := p.isLt
  apply BitVec.eq_of_toNat_eq
  rw [CmdWord.handle, BitVec.extractLsb'_toNat, packWord_toNat, Nat.shiftRight_eq_div_pow]
  omega

theorem packWord_period : CmdWord.period (packWord op ch arg p) = p := by
  have := op.isLt
  have := ch.isLt
  have := arg.isLt
  have := p.isLt
  apply BitVec.eq_of_toNat_eq
  rw [CmdWord.period, BitVec.extractLsb'_toNat, packWord_toNat, Nat.shiftRight_eq_div_pow]
  omega

/-- R50: `duty` sits in the low ten bits of `arg16`. -/
theorem dutyArg_toNat (d : Duty) : (dutyArg d).toNat = d.toNat := by
  show (0#6 ++ d).toNat = _
  rw [BitVec.toNat_append]
  simp

theorem packWord_duty (d : Duty) : CmdWord.duty (packWord op ch (dutyArg d) p) = d := by
  have := op.isLt
  have := ch.isLt
  have := d.isLt
  have := p.isLt
  apply BitVec.eq_of_toNat_eq
  rw [CmdWord.duty, BitVec.extractLsb'_toNat, packWord_toNat, dutyArg_toNat, Nat.shiftRight_eq_div_pow]
  omega

end

end Sys2Proof
end

