-- ==== Sys2Proof/Laws/State.lean ====
section
/-! SUPPORT. The small lemmas of State's updates: each field after each update, true by rfl, so that no later proof
unfolds a record update. -/

namespace Sys2Proof.Machine

theorem noReset_nil : NoReset [] := List.not_mem_nil
theorem noOverflow_nil : NoOverflow [] := List.not_mem_nil
theorem noTick_nil : NoTick [] := rfl

section Updates

variable (s : State) (e : Event) (reg : Reg) (mask data : Byte)

@[simp] theorem State.emit_params : (s.emit e).params = s.params := rfl
@[simp] theorem State.emit_block : (s.emit e).block = s.block := rfl
@[simp] theorem State.emit_regs : (s.emit e).regs = s.regs := rfl
@[simp] theorem State.emit_trace : (s.emit e).trace = s.trace ++ [e] := rfl
@[simp] theorem State.emit_env : (s.emit e).env = s.env := rfl
@[simp] theorem State.emit_cmds : (s.emit e).cmds = s.cmds := rfl
@[simp] theorem State.emit_resets : (s.emit e).resets = s.resets := rfl

@[simp] theorem State.emitW_params : (s.emitW reg mask data).params = s.params := rfl
@[simp] theorem State.emitW_block : (s.emitW reg mask data).block = s.block := rfl
@[simp] theorem State.emitW_regs : (s.emitW reg mask data).regs = s.regs.write s.params reg mask data := rfl
@[simp] theorem State.emitW_trace : (s.emitW reg mask data).trace = s.trace ++ [.w reg mask data] := rfl
@[simp] theorem State.emitW_env : (s.emitW reg mask data).env = s.env := rfl
@[simp] theorem State.emitW_cmds : (s.emitW reg mask data).cmds = s.cmds := rfl
@[simp] theorem State.emitW_resets : (s.emitW reg mask data).resets = s.resets := rfl

@[simp] theorem State.hardReset_params : s.hardReset.params = s.params := rfl
@[simp] theorem State.hardReset_block :
    s.hardReset.block = Block.atReset s.params (Config.resetDraw (s.resets + 1)) := rfl
@[simp] theorem State.hardReset_regs :
    s.hardReset.regs = RegSet.atReset s.params (Config.resetDraw (s.resets + 1)) := rfl
@[simp] theorem State.hardReset_trace : s.hardReset.trace = s.trace := rfl
@[simp] theorem State.hardReset_env : s.hardReset.env = s.env := rfl
@[simp] theorem State.hardReset_cmds : s.hardReset.cmds = s.cmds := rfl
@[simp] theorem State.hardReset_resets : s.hardReset.resets = s.resets + 1 := rfl

end Updates

section BlockUpdates

variable (b : Block) (code : CsCode) (top : Wide) (h : Handle) (r : RunState)

@[simp] theorem Block.setConfig_cfgCs : (b.setConfig code top).cfgCs = code := rfl
@[simp] theorem Block.setConfig_cfgTop : (b.setConfig code top).cfgTop = top := rfl
@[simp] theorem Block.setConfig_cfgValid : (b.setConfig code top).cfgValid = true := rfl
@[simp] theorem Block.setConfig_run : (b.setConfig code top).run = b.run := rfl
@[simp] theorem Block.setConfig_handle : (b.setConfig code top).handle = b.handle := rfl

@[simp] theorem Block.setHandle_cfgCs : (b.setHandle h).cfgCs = b.cfgCs := rfl
@[simp] theorem Block.setHandle_cfgTop : (b.setHandle h).cfgTop = b.cfgTop := rfl
@[simp] theorem Block.setHandle_cfgValid : (b.setHandle h).cfgValid = b.cfgValid := rfl
@[simp] theorem Block.setHandle_run : (b.setHandle h).run = b.run := rfl
@[simp] theorem Block.setHandle_handle : (b.setHandle h).handle = some h := rfl

@[simp] theorem Block.setRun_cfgCs : (b.setRun r).cfgCs = b.cfgCs := rfl
@[simp] theorem Block.setRun_cfgTop : (b.setRun r).cfgTop = b.cfgTop := rfl
@[simp] theorem Block.setRun_cfgValid : (b.setRun r).cfgValid = b.cfgValid := rfl
@[simp] theorem Block.setRun_run : (b.setRun r).run = r := rfl
@[simp] theorem Block.setRun_handle : (b.setRun r).handle = b.handle := rfl

end BlockUpdates

section EnvironmentUpdates

variable (s : State) (v : Wide)

/-- `OvfDeliver` changes the trace and nothing else (R116). -/
theorem State.deliverOverflow_eq :
    s.deliverOverflow = { s with trace := s.trace ++ (s.callback.map Event.cb).toList } := by
  unfold State.deliverOverflow
  cases s.callback <;> simp [State.emit]

/-- The counter's own movement changes `CNT` and nothing else (R19). -/
theorem State.tick_eq :
    s.tick v = { s with regs := { s.regs with cnt := (s.tick v).regs.cnt } } := by
  unfold State.tick
  split <;> rfl

@[simp] theorem State.deliverOverflow_params : s.deliverOverflow.params = s.params := by
  rw [s.deliverOverflow_eq]
@[simp] theorem State.deliverOverflow_block : s.deliverOverflow.block = s.block := by
  rw [s.deliverOverflow_eq]
@[simp] theorem State.deliverOverflow_regs : s.deliverOverflow.regs = s.regs := by
  rw [s.deliverOverflow_eq]
@[simp] theorem State.deliverOverflow_env : s.deliverOverflow.env = s.env := by
  rw [s.deliverOverflow_eq]
@[simp] theorem State.deliverOverflow_cmds : s.deliverOverflow.cmds = s.cmds := by
  rw [s.deliverOverflow_eq]
@[simp] theorem State.deliverOverflow_resets : s.deliverOverflow.resets = s.resets := by
  rw [s.deliverOverflow_eq]
@[simp] theorem State.deliverOverflow_trace :
    s.deliverOverflow.trace = s.trace ++ (s.callback.map Event.cb).toList := by
  rw [s.deliverOverflow_eq]

@[simp] theorem State.tick_params : (s.tick v).params = s.params := by rw [s.tick_eq]
@[simp] theorem State.tick_block : (s.tick v).block = s.block := by rw [s.tick_eq]
@[simp] theorem State.tick_trace : (s.tick v).trace = s.trace := by rw [s.tick_eq]
@[simp] theorem State.tick_env : (s.tick v).env = s.env := by rw [s.tick_eq]
@[simp] theorem State.tick_cmds : (s.tick v).cmds = s.cmds := by rw [s.tick_eq]
@[simp] theorem State.tick_resets : (s.tick v).resets = s.resets := by rw [s.tick_eq]

end EnvironmentUpdates

end Sys2Proof.Machine
end

