-- ==== Sys2Proof/Laws/Registers.lean ====
section
/-! SUPPORT. What the write primitive can do to the register set (`20_memory.md` R31 to R36): what the two bytes of a
wide value latch, and that every write keeps the widths of the registers. -/

namespace Sys2Proof.Machine

/-- R32: the latched value is `TEMPH` times 256 plus the data byte. -/
theorem latched_toNat (t d : Byte) : (latched t d).toNat = t.toNat * 256 + d.toNat := by
  have h := BitVec.toNat_append (x := t) (y := d)
  rw [Nat.shiftLeft_eq, Nat.mul_comm, ← Nat.two_pow_add_eq_or_of_lt d.isLt] at h
  show (t ++ d : BitVec (8 + 8)).toNat = _
  rw [h]; omega

/-- R35: the high byte is `v >> 8`. -/
theorem wideHigh_toNat (v : Wide) : (wideHigh v).toNat = v.toNat / 256 := by
  have := v.isLt
  simp [wideHigh, Nat.shiftRight_eq_div_pow]; omega

/-- R35: the low byte is `v & 0xFF`. -/
theorem wideLow_toNat (v : Wide) : (wideLow v).toNat = v.toNat % 256 := by
  simp [wideLow]

/-- R35, R32: the two bytes of a wide value, latched, are the value. -/
@[simp] theorem latched_high_low (v : Wide) : latched (wideHigh v) (wideLow v) = v := by
  apply BitVec.eq_of_toNat_eq
  rw [latched_toNat, wideHigh_toNat, wideLow_toNat]; omega

/-- R17: `TEMPH` keeps `HI_BITS` bits. -/
theorem toNat_and_tempMask (P : Params) (d : Byte) : (d &&& P.tempMask).toNat = d.toNat % 2 ^ P.hiBits := by
  have := d.isLt
  cases h : P.counterBits
  · have := Nat.and_two_pow_sub_one_eq_mod d.toNat 2
    simpa [Params.tempMask, Params.hiBits, h, CounterBits.bits] using this
  · have := Nat.and_two_pow_sub_one_eq_mod d.toNat 8
    simpa [Params.tempMask, Params.hiBits, h, CounterBits.bits] using this

/-- R18 to R20: a wide register keeps `COUNTER_BITS` bits. -/
theorem toNat_and_wideMask (P : Params) (v : Wide) : (v &&& P.wideMask).toNat = v.toNat % P.res := by
  have := v.isLt
  cases h : P.counterBits
  · have := Nat.and_two_pow_sub_one_eq_mod v.toNat 10
    simpa [Params.wideMask, Params.res, h, CounterBits.bits] using this
  · have := Nat.and_two_pow_sub_one_eq_mod v.toNat 16
    simpa [Params.wideMask, Params.res, h, CounterBits.bits] using this

/-- R34: the high byte of a value below `RES` loses nothing in `TEMPH`. -/
theorem wideHigh_keeps (P : Params) (v : Wide) (h : fits P v) : wideHigh v &&& P.tempMask = wideHigh v := by
  apply BitVec.eq_of_toNat_eq
  rw [toNat_and_tempMask, wideHigh_toNat]
  apply Nat.mod_eq_of_lt
  revert h
  cases hb : P.counterBits <;> simp [fits, Params.hiBits, Params.res, hb, CounterBits.bits] <;> omega

/-- R32: what a low-byte write latches has `COUNTER_BITS` bits. -/
theorem latched_fits (P : Params) (t d : Byte) (h : t.toNat < 2 ^ P.hiBits) : fits P (latched t d) := by
  have := d.isLt
  have := t.isLt
  unfold fits
  rw [latched_toNat]
  revert h
  cases hb : P.counterBits <;> simp [Params.hiBits, Params.res, hb, CounterBits.bits] <;> omega

theorem res_pos (P : Params) : 0 < P.res := by unfold Params.res; positivity

theorem hiBits_le (P : Params) : P.hiBits ≤ 8 := by
  cases hb : P.counterBits <;> simp [Params.hiBits, hb, CounterBits.bits]

theorem res_le (P : Params) : P.res ≤ 65536 := by
  cases hb : P.counterBits <;> simp [Params.res, hb, CounterBits.bits]

/-- Every write keeps the widths of the registers. -/
theorem RegSet.write_inRange {P : Params} {r : RegSet} (reg : Reg) (mask data : Byte) (h : r.InRange P) :
    (r.write P reg mask data).InRange P := by
  obtain ⟨h1, h2, h3, h4, h5, h6⟩ := h
  have hl := latched_fits P r.temph data h1
  have ht : (data &&& P.tempMask).toNat < 2 ^ P.hiBits := by
    rw [toNat_and_tempMask]; exact Nat.mod_lt _ (by positivity)
  cases reg <;> constructor <;> assumption

/-- R39: a masked write is idempotent. -/
theorem maskedByte_idem (x m d : Byte) : maskedByte (maskedByte x m d) m d = maskedByte x m d := by
  unfold maskedByte
  ext i hi
  simp
  cases x[i] <;> cases m[i] <;> cases d[i] <;> rfl
end Sys2Proof.Machine
end

