-- ==== Sys2Proof/Laws/Run.lean ====
section
/-! SUPPORT. Once and for all, what running a command can do: `perform_cases` (the command goes through whole, or a reset
drops it) and `perform_after` (no reset comes), with the effect of an action list written as three plain folds.
Callers cite them and never unfold `perform`, `interruptPoint` or `pairPoint`. -/

namespace Sys2Proof.Machine

/-- The effect of one action on the block state. -/
def Action.block : Action → Block → Block
  | .setConfig code top, b => b.setConfig code top
  | .setHandle h, b => b.setHandle h
  | .setRun r, b => b.setRun r
  | .w _ _ _, b => b
  | .wide _ _, b => b
  | .pin _, b => b

/-- The effect of one action on the register set. -/
def Action.regs (P : Params) : Action → RegSet → RegSet
  | .w reg mask data, r => r.write P reg mask data
  | .wide reg v, r => (r.write P .temph 0xFF#8 (wideHigh v)).write P reg.low 0xFF#8 (wideLow v)
  | .pin _, r => r
  | .setConfig _ _, r => r
  | .setHandle _, r => r
  | .setRun _, r => r

/-- The events of one action. -/
def Action.events : Action → List Event
  | .w reg mask data => [.w reg mask data]
  | .wide reg v => [.w .temph 0xFF#8 (wideHigh v), .w reg.low 0xFF#8 (wideLow v)]
  | .pin ch => [.pin ch]
  | .setConfig _ _ => []
  | .setHandle _ => []
  | .setRun _ => []

/-- The effect of an action list on the block state. -/
def blockAfter (acts : List Action) (b : Block) : Block := acts.foldl (fun b a => a.block b) b

/-- The effect of an action list on the register set. -/
def regsAfter (P : Params) (acts : List Action) (r : RegSet) : RegSet := acts.foldl (fun r a => a.regs P r) r

/-- The events of an action list, in order. -/
def eventsOf (acts : List Action) : List Event := acts.flatMap Action.events

@[simp] theorem commandEvents_append (a b : List Event) :
    commandEvents (a ++ b) = commandEvents a ++ commandEvents b := List.filter_append ..

@[simp] theorem commandEvents_callback (s : State) :
    commandEvents (s.callback.map Event.cb).toList = [] := by
  cases s.callback <;> rfl

@[simp] theorem commandEvents_events (a : Action) : commandEvents a.events = a.events := by
  cases a <;> rfl

/-- A write meets a counter that moved: the other registers are as if it had not. -/
theorem RegSet.write_cnt (P : Params) (r : RegSet) (c : Wide) (reg : Reg) (mask data : Byte) :
    RegSet.write P { r with cnt := c } reg mask data
      = { r.write P reg mask data with cnt := (RegSet.write P { r with cnt := c } reg mask data).cnt } := by
  cases reg <;> rfl

theorem Action.regs_cnt (P : Params) (a : Action) (r : RegSet) (c : Wide) :
    a.regs P { r with cnt := c } = { a.regs P r with cnt := (a.regs P { r with cnt := c }).cnt } := by
  cases a <;> try rfl
  · exact r.write_cnt P c _ _ _
  · rename_i reg v
    cases reg <;> try rfl
    rename_i k
    cases k <;> rfl

/-- What running a list in two parts does. -/
@[simp] theorem blockAfter_append (a c : List Action) (b : Block) :
    blockAfter (a ++ c) b = blockAfter c (blockAfter a b) := List.foldl_append ..
@[simp] theorem regsAfter_append (P : Params) (a c : List Action) (r : RegSet) :
    regsAfter P (a ++ c) r = regsAfter P c (regsAfter P a r) := List.foldl_append ..
@[simp] theorem eventsOf_append (a c : List Action) : eventsOf (a ++ c) = eventsOf a ++ eventsOf c :=
  List.flatMap_append ..

section Relation

variable {s t u : State} {b b' : Block} {r r' : RegSet} {es es' : List Event}

theorem NoTick.of_suffix {e e' : List EnvInput} (h : e' <:+ e) (hn : NoTick e) : NoTick e' := by
  simp only [NoTick, List.all_eq_true] at hn ⊢
  exact fun x hx => hn x (h.subset hx)

/-- Nothing happened. -/
theorem AfterCommand.refl (s : State) : AfterCommand s s s.block s.regs [] :=
  ⟨rfl, rfl, rfl, List.suffix_rfl, rfl, rfl, fun _ => rfl, ⟨[], by simp, rfl⟩, fun _ => by simp⟩

/-- Two stretches of a command, one after the other. -/
theorem AfterCommand.trans (h : AfterCommand s t b r es) (h' : AfterCommand t u b' r' es') {r'' : RegSet}
    (hr : r' = { r'' with cnt := r'.cnt }) (hc : t.regs.cnt = r.cnt → r'.cnt = r''.cnt) :
    AfterCommand s u b' r'' (es ++ es') := by
  refine ⟨h'.params.trans h.params, h'.cmds.trans h.cmds, h'.resets.trans h.resets, h'.env.trans h.env, h'.block,
    ?_, fun hn => ?_, ?_, fun hn => ?_⟩
  · have h1 := h'.regs
    rw [hr] at h1
    exact h1
  · rw [h'.cnt (hn.of_suffix h.env), hc (h.cnt hn)]
  · obtain ⟨a, ha, ha'⟩ := h.trace
    obtain ⟨c, hc, hc'⟩ := h'.trace
    exact ⟨a ++ c, by rw [hc, ha, List.append_assoc], by rw [commandEvents_append, ha', hc']⟩
  · rw [h'.traceExact (fun hm => hn (h.env.subset hm)), h.traceExact hn, List.append_assoc]

/-- The environment moved after the command's part was done. -/
theorem AfterCommand.then_environment (h : AfterCommand s t b r es) (h' : AfterCommand t u t.block t.regs []) :
    AfterCommand s u b r es := by
  have := h.trans h' (r'' := r) h.regs id
  rw [h.block, List.append_nil] at this
  exact this

/-- A stretch of a command, then a reset. -/
theorem AfterCommand.then_reset (h : AfterCommand s t b r es) (h' : AfterReset t u es') :
    AfterReset s u (es ++ es') := by
  refine ⟨h.env.subset h'.came, h'.params.trans h.params, h'.cmds.trans h.cmds, by rw [h'.resets, h.resets],
    h'.env.trans h.env, ?_, ?_, ?_⟩
  · rw [h'.block, h.params, h.resets]
  · rw [h'.regs, h.params, h.resets]
  · obtain ⟨a, ha, ha'⟩ := h.trace
    obtain ⟨c, hc, hc'⟩ := h'.trace
    exact ⟨a ++ c, by rw [hc, ha, List.append_assoc],
      by rw [commandEvents_append, ha']; exact (List.prefix_append_right_inj es).mpr hc'⟩

/-- More events may have been to come. -/
theorem AfterReset.more (h : AfterReset s t es) (es' : List Event) : AfterReset s t (es ++ es') := by
  refine ⟨h.came, h.params, h.cmds, h.resets, h.env, h.block, h.regs, ?_⟩
  obtain ⟨a, ha, ha'⟩ := h.trace
  exact ⟨a, ha, ha'.trans (List.prefix_append ..)⟩

/-- With the environment silent, the next state is the described one. -/
theorem AfterCommand.silent (h : AfterCommand s t b r es) (he : s.env = []) :
    t = { s with block := b, regs := r, trace := s.trace ++ es } := by
  have h4 := h.env
  have h6 := h.regs
  have h7 := h.cnt (by rw [he]; exact noTick_nil)
  have h8 := h.traceExact (by rw [he]; exact noOverflow_nil)
  rw [he] at h4
  rw [h7] at h6
  obtain ⟨tp, tb, tr, tt, te, tc, tn⟩ := t
  obtain rfl : tp = s.params := h.params
  obtain rfl : tb = b := h.block
  obtain rfl : tr = r := h6
  obtain rfl : tt = s.trace ++ es := h8
  obtain rfl : te = [] := List.suffix_nil.mp h4
  obtain rfl : tc = s.cmds := h.cmds
  obtain rfl : tn = s.resets := h.resets
  rw [← he]

end Relation

/-- `proceed` at a point. -/
theorem proceed_after (s : State) (e : List EnvInput) :
    AfterCommand { s with env := .proceed :: e } { s with env := e } s.block s.regs [] :=
  ⟨rfl, rfl, rfl, List.suffix_cons .., rfl, rfl, fun _ => rfl, ⟨[], by simp, rfl⟩, fun _ => by simp⟩

/-- A reset at a point (R140). -/
theorem hardReset_after (s : State) (e : List EnvInput) :
    AfterReset { s with env := .reset :: e } { s with env := e }.hardReset [] :=
  ⟨List.mem_cons_self, rfl, rfl, rfl, List.suffix_cons .., rfl, rfl, ⟨[], by simp, List.prefix_rfl⟩⟩

/-- One overflow at a point: callbacks and nothing else (R116). -/
theorem overflow_after (s : State) (e : List EnvInput) :
    AfterCommand { s with env := .overflow :: e } { s.deliverOverflow with env := e } s.block s.regs [] :=
  ⟨by simp, by simp, by simp, List.suffix_cons .., by simp, by simp, fun _ => by simp,
    ⟨_, by simp; rfl, by simp⟩, fun hn => absurd List.mem_cons_self hn⟩

/-- One movement of the counter at a point (R19). -/
theorem tick_after (s : State) (v : Wide) (e : List EnvInput) :
    AfterCommand { s with env := .tick v :: e } { s.tick v with env := e } s.block s.regs [] :=
  ⟨by simp, by simp, by simp, List.suffix_cons .., by simp, by rw [s.tick_eq],
    fun hn => by simp [NoTick, EnvInput.isTick] at hn, ⟨[], by simp, rfl⟩, fun _ => by simp⟩

/-- A point for the interrupt agent: only callbacks and the counter's own movements happen, or a reset (R116). -/
theorem interruptPoint_cases (e : List EnvInput) (s : State) :
    (∃ t, interruptPoint e s = .go t ∧ AfterCommand { s with env := e } t s.block s.regs []) ∨
      (∃ t, interruptPoint e s = .dropped t ∧ AfterReset { s with env := e } t []) := by
  induction e generalizing s with
  | nil => exact .inl ⟨_, rfl, AfterCommand.refl { s with env := [] }⟩
  | cons x e ih =>
    cases x with
    | reset => exact .inr ⟨_, rfl, hardReset_after s e⟩
    | proceed => exact .inl ⟨_, rfl, proceed_after s e⟩
    | overflow =>
      obtain ⟨t, ht, ha⟩ | ⟨t, ht, ha⟩ := ih s.deliverOverflow
      · exact .inl ⟨t, ht, (overflow_after s e).then_environment ha⟩
      · exact .inr ⟨t, ht, (overflow_after s e).then_reset ha⟩
    | tick v =>
      obtain ⟨t, ht, ha⟩ | ⟨t, ht, ha⟩ := ih (s.tick v)
      · exact .inl ⟨t, ht, (tick_after s v e).then_environment ha⟩
      · exact .inr ⟨t, ht, (tick_after s v e).then_reset ha⟩

/-- The point inside a pair: only the counter's own movements happen, or a reset; nothing is emitted (R38). -/
theorem pairPoint_cases (e : List EnvInput) (s : State) :
    (∃ t, pairPoint e s = .go t ∧ AfterCommand { s with env := e } t s.block s.regs [] ∧ t.trace = s.trace) ∨
      (∃ t, pairPoint e s = .dropped t ∧ AfterReset { s with env := e } t []) := by
  induction e generalizing s with
  | nil => exact .inl ⟨_, rfl, AfterCommand.refl { s with env := [] }, rfl⟩
  | cons x e ih =>
    cases x with
    | reset => exact .inr ⟨_, rfl, hardReset_after s e⟩
    | proceed => exact .inl ⟨_, rfl, proceed_after s e, rfl⟩
    | overflow => exact .inl ⟨_, rfl, AfterCommand.refl { s with env := .overflow :: e }, rfl⟩
    | tick v =>
      obtain ⟨t, ht, ha, hb⟩ | ⟨t, ht, ha⟩ := ih (s.tick v)
      · exact .inl ⟨t, ht, (tick_after s v e).then_environment ha, by rw [hb, s.tick_trace]⟩
      · exact .inr ⟨t, ht, (tick_after s v e).then_reset ha⟩

/-- A plain write happens whole. -/
theorem State.emitW_after (s : State) (reg : Reg) (mask data : Byte) :
    AfterCommand s (s.emitW reg mask data) s.block (s.regs.write s.params reg mask data) [.w reg mask data] :=
  ⟨rfl, rfl, rfl, List.suffix_rfl, rfl, rfl, fun _ => rfl, ⟨_, rfl, rfl⟩, fun _ => rfl⟩

/-- A pair happens whole, with no other event between its two, unless a reset comes between them (R36, R38, R140). -/
theorem State.writeWide_cases (s : State) (reg : WideReg) (v : Wide) :
    (∃ t, s.writeWide reg v = .go t ∧
      AfterCommand s t s.block (Action.regs s.params (.wide reg v) s.regs) (Action.events (.wide reg v)) ∧
      t.trace = s.trace ++ Action.events (.wide reg v)) ∨
    (∃ t, s.writeWide reg v = .dropped t ∧ AfterReset s t (Action.events (.wide reg v))) := by
  have h1 := s.emitW_after .temph 0xFF#8 (wideHigh v)
  obtain ⟨t, ht, ha, hb⟩ | ⟨t, ht, ha⟩ := pairPoint_cases s.env (s.emitW .temph 0xFF#8 (wideHigh v))
  · left
    refine ⟨t.emitW reg.low 0xFF#8 (wideLow v), by simp [State.writeWide, ht], ?_, by simp [hb, Action.events]⟩
    have h2 := h1.then_environment ha
    have h4 := h2.trans (t.emitW_after reg.low 0xFF#8 (wideLow v))
      (r'' := Action.regs s.params (.wide reg v) s.regs)
      (by rw [h2.params, h2.regs]; exact RegSet.write_cnt _ _ _ _ _ _)
      (by
        intro hc
        have : t.regs = s.regs.write s.params .temph 0xFF#8 (wideHigh v) := by rw [h2.regs, hc]
        rw [h2.params, this]
        rfl)
    rw [h2.block] at h4
    exact h4
  · right
    refine ⟨t, by simp [State.writeWide, ht], ?_⟩
    exact (h1.then_reset ha).more [.w reg.low 0xFF#8 (wideLow v)]

/-- One action: it happens whole, or a reset drops the command. -/
theorem State.act_cases (s : State) (a : Action) :
    (∃ t, s.act a = .go t ∧ AfterCommand s t (a.block s.block) (a.regs s.params s.regs) a.events ∧
      t.trace = s.trace ++ a.events) ∨
    (∃ t, s.act a = .dropped t ∧ AfterReset s t a.events) := by
  cases a with
  | wide reg v => exact s.writeWide_cases reg v
  | w reg mask data => exact .inl ⟨_, rfl, s.emitW_after reg mask data, rfl⟩
  | pin ch =>
    exact .inl ⟨_, rfl, ⟨rfl, rfl, rfl, List.suffix_rfl, rfl, rfl, fun _ => rfl, ⟨_, rfl, rfl⟩, fun _ => rfl⟩, rfl⟩
  | setConfig code top =>
    exact .inl ⟨_, rfl, ⟨rfl, rfl, rfl, List.suffix_rfl, rfl, rfl, fun _ => rfl, ⟨[], by simp, rfl⟩,
      fun _ => by simp [Action.events]⟩, by simp [Action.events]⟩
  | setHandle c =>
    exact .inl ⟨_, rfl, ⟨rfl, rfl, rfl, List.suffix_rfl, rfl, rfl, fun _ => rfl, ⟨[], by simp, rfl⟩,
      fun _ => by simp [Action.events]⟩, by simp [Action.events]⟩
  | setRun c =>
    exact .inl ⟨_, rfl, ⟨rfl, rfl, rfl, List.suffix_rfl, rfl, rfl, fun _ => rfl, ⟨[], by simp, rfl⟩,
      fun _ => by simp [Action.events]⟩, by simp [Action.events]⟩

/-- One action after a stretch of a command. -/
theorem AfterCommand.then_action {s t u : State} {b : Block} {r : RegSet} {es : List Event} {a : Action}
    (h : AfterCommand s t b r es)
    (h' : AfterCommand t u (a.block t.block) (a.regs t.params t.regs) a.events) :
    AfterCommand s u (a.block b) (a.regs s.params r) (es ++ a.events) := by
  have h1 := h.trans h' (r'' := a.regs s.params r) (by
      rw [h.params, h.regs]; exact a.regs_cnt _ _ _) (by
      intro hc
      have : t.regs = r := by rw [h.regs, hc]
      rw [h.params, this])
  rw [h.block] at h1
  exact h1

/-- Running a command: it goes through whole, its effect that of its actions in order whatever else the environment did
(R41, R116), or a reset drops it (R140). -/
theorem perform_cases (acts : List Action) (s : State) :
    AfterCommand s (perform acts s) (blockAfter acts s.block) (regsAfter s.params acts s.regs) (eventsOf acts) ∨
      AfterReset s (perform acts s) (eventsOf acts) := by
  suffices hs : ∀ (acts : List Action) (t : State) (b : Block) (r : RegSet) (es : List Event),
      AfterCommand s t b r es →
      AfterCommand s (perform acts t) (blockAfter acts b) (regsAfter s.params acts r) (es ++ eventsOf acts) ∨
        AfterReset s (perform acts t) (es ++ eventsOf acts) by
    simpa using hs acts s s.block s.regs [] (AfterCommand.refl s)
  intro acts
  induction acts with
  | nil => intro t b r es ht; left; simpa [perform, blockAfter, regsAfter, eventsOf] using ht
  | cons a rest ih =>
    intro t b r es ht
    have hev : es ++ eventsOf (a :: rest) = (es ++ a.events) ++ eventsOf rest := by simp [eventsOf]
    rw [hev]
    obtain ⟨t', h1, h2, -⟩ | ⟨t', h1, h2⟩ := t.act_cases a
    · have h3 := ht.then_action h2
      cases rest with
      | nil => left; simpa [perform, h1, Flow.state, blockAfter, regsAfter, eventsOf] using h3
      | cons c rest =>
        obtain ⟨u, h4, h5⟩ | ⟨u, h4, h5⟩ := interruptPoint_cases t'.env t'
        · simpa [perform, h1, h4, blockAfter, regsAfter] using ih u _ _ _ (h3.then_environment h5)
        · right
          simpa [perform, h1, h4] using (h3.then_reset h5).more (eventsOf (c :: rest))
    · right
      have h3 := (ht.then_reset h2).more (eventsOf rest)
      cases rest <;> simpa [perform, h1, Flow.state] using h3

/-- Running a command with no reset to come. -/
theorem perform_after (acts : List Action) (s : State) (h : NoReset s.env) :
    AfterCommand s (perform acts s) (blockAfter acts s.block) (regsAfter s.params acts s.regs) (eventsOf acts) :=
  (perform_cases acts s).resolve_right fun hr => h hr.came

/-- A command of a present unit, with no reset to come. -/
theorem runCommand_after (acts : List Action) (s : State) (hp : s.params.variantPresent = true)
    (h : NoReset s.env) :
    ∃ t, runCommand acts s = .next t ∧
      AfterCommand s t (blockAfter acts s.block) (regsAfter s.params acts s.regs) (eventsOf acts) :=
  ⟨_, by simp [runCommand, hp], perform_after acts s h⟩

section Keeps

variable {Q : State → Prop} (henv : ∀ t e, Q t → Q { t with env := e })
  (hover : ∀ t : State, Q t → Q t.deliverOverflow) (htick : ∀ (t : State) (v : Wide), Q t → Q (t.tick v))
  (hreset : ∀ t : State, Q t → Q t.hardReset)

include henv htick hreset

/-- A property that every input keeps holds after the point inside a pair. -/
theorem pairPoint_keeps (e : List EnvInput) (s : State) (hs : Q s) : Q (pairPoint e s).state := by
  induction e generalizing s with
  | nil => exact henv _ _ hs
  | cons x e ih =>
    cases x with
    | proceed => exact henv _ _ hs
    | overflow => exact henv _ _ hs
    | tick v => exact ih _ (htick _ v hs)
    | reset => exact hreset _ (henv _ _ hs)

include hover

/-- A property that every input keeps holds after a point for the interrupt agent. -/
theorem interruptPoint_keeps (e : List EnvInput) (s : State) (hs : Q s) : Q (interruptPoint e s).state := by
  induction e generalizing s with
  | nil => exact henv _ _ hs
  | cons x e ih =>
    cases x with
    | proceed => exact henv _ _ hs
    | overflow => exact ih _ (hover _ hs)
    | tick v => exact ih _ (htick _ v hs)
    | reset => exact hreset _ (henv _ _ hs)

/-- A property that every input and every action of a command keep holds after the command, dropped or not. -/
theorem perform_keeps (acts : List Action) (hact : ∀ a ∈ acts, ∀ t, Q t → Q (t.act a).state) (s : State) (hs : Q s) :
    Q (perform acts s) := by
  induction acts generalizing s with
  | nil => exact hs
  | cons a rest ih =>
    have h1 := hact a List.mem_cons_self s hs
    cases rest with
    | nil => exact h1
    | cons b rest =>
      rw [perform]
      cases h2 : s.act a with
      | dropped t => rw [h2] at h1; exact h1
      | go t =>
        rw [h2] at h1
        have h3 := interruptPoint_keeps henv hover htick hreset t.env t h1
        simp only
        cases h4 : interruptPoint t.env t with
        | dropped u => rw [h4] at h3; exact h3
        | go u =>
          rw [h4] at h3
          exact ih (fun x hx => hact x (List.mem_cons_of_mem _ hx)) u h3

end Keeps

end Sys2Proof.Machine
end

