-- ==== Sys2Proof/Laws/Exec.lean ====
section
/-! SUPPORT. exec as one function of an action list: every command runs its actions (`exec_eq`), and so answers in one of
two ways (`exec_cases`) or, with no reset to come, in one (`exec_after`); and what a step can be (`step_cases`). -/

namespace Sys2Proof.Machine

/-- The actions of each command from a state. -/
def actionsOf (s : State) : Instr → List Action
  | .init p => setPeriodActions s.params p
  | .setperiod p => setPeriodActions s.params p
  | .start => startActions s.block.cfgCs
  | .stop => stopActions
  | .restart => startActions s.block.cfgCs
  | .resume => resumeActions s.block.cfgCs
  | .setpwmduty ch d => dutyActions s.block.cfgTop ch d
  | .enpwm ch d => enablePwmActions s.block.cfgTop ch d
  | .enpwmp ch d p => setPeriodActions s.params p ++ enablePwmActions (periodTop s.params p) ch d
  | .dispwm ch => disablePwmActions ch
  | .attach h => attachActions h
  | .attachp h p => setPeriodActions s.params p ++ attachActions h
  | .detach => detachActions

/-- Every command runs its actions. -/
theorem exec_eq (i : Instr) (s : State) : exec i s = runCommand (actionsOf s i) s := by
  cases i <;> rfl

/-- A command of a present unit: it goes through whole, or a reset drops it. -/
theorem exec_cases (i : Instr) (s : State) (hp : s.params.variantPresent = true) :
    ∃ t, exec i s = .next t ∧
      (AfterCommand s t (blockAfter (actionsOf s i) s.block) (regsAfter s.params (actionsOf s i) s.regs)
          (eventsOf (actionsOf s i)) ∨
        AfterReset s t (eventsOf (actionsOf s i))) :=
  ⟨_, by rw [exec_eq, runCommand, if_pos hp], perform_cases _ s⟩

/-- A command of a present unit with no reset to come. -/
theorem exec_after (i : Instr) (s : State) (hp : s.params.variantPresent = true) (h : NoReset s.env) :
    ∃ t, exec i s = .next t ∧
      AfterCommand s t (blockAfter (actionsOf s i) s.block) (regsAfter s.params (actionsOf s i) s.regs)
          (eventsOf (actionsOf s i)) := by
  rw [exec_eq]
  exact runCommand_after _ s hp h

/-- A command of the inert unit (R59). -/
theorem exec_inert (i : Instr) (s : State) (hp : s.params.variantPresent = false) : exec i s = .next s := by
  rw [exec_eq, runCommand, hp]
  rfl

/-- What it means that a command answered a next state. -/
theorem exec_inversion {i : Instr} {s t : State} (h : exec i s = .next t) :
    (s.params.variantPresent = false ∧ t = s) ∨
      (s.params.variantPresent = true ∧
        (AfterCommand s t (blockAfter (actionsOf s i) s.block) (regsAfter s.params (actionsOf s i) s.regs)
            (eventsOf (actionsOf s i)) ∨
          AfterReset s t (eventsOf (actionsOf s i)))) := by
  cases hp : s.params.variantPresent
  · rw [exec_inert i s hp] at h
    cases h
    exact .inl ⟨rfl, rfl⟩
  · obtain ⟨u, h1, h2⟩ := exec_cases i s hp
    rw [h1] at h
    cases h
    exact .inr ⟨rfl, h2⟩

/-- What a step can be: the command agent waiting, ignoring a word or running a command, or one move of the environment
or the interrupt agent. -/
theorem step_cases {s t : State} (h : step s = .next t) :
    (∃ e, (s.env = [] ∧ e = [] ∨ s.env = .proceed :: e) ∧
      ∃ ws, t = { s with env := e, cmds := ws } ∨ ∃ i, exec i { s with env := e, cmds := ws } = .next t) ∨
    (∃ e, s.env = .overflow :: e ∧ t = { s with env := e }.deliverOverflow) ∨
    (∃ v e, s.env = .tick v :: e ∧ t = { s with env := e }.tick v) ∨
    (∃ e, s.env = .reset :: e ∧ t = { s with env := e }.hardReset) := by
  have command : ∀ e, (match State.accept { s with env := e } with
        | none => Host.Outcome.next { s with env := e }
        | some (w, u) =>
          match decode w with
          | .instr i => exec i u
          | .reservedOpcode _ => .next u) = .next t →
      ∃ ws, t = { s with env := e, cmds := ws } ∨ ∃ i, exec i { s with env := e, cmds := ws } = .next t := by
    intro e he
    rcases hc : s.cmds with _ | ⟨w, ws⟩
    · simp only [State.accept, hc] at he
      cases he
      exact ⟨[], .inl rfl⟩
    · simp only [State.accept, hc] at he
      refine ⟨ws, ?_⟩
      split at he
      · exact .inr ⟨_, he⟩
      · cases he
        exact .inl rfl
  rcases hs : s.env with _ | ⟨x, e⟩
  · refine .inl ⟨[], .inl ⟨rfl, rfl⟩, command [] ?_⟩
    have hs' : { s with env := [] } = s := by rw [← hs]
    rw [hs']
    simp only [step, State.turn, hs] at h
    exact h
  · cases x with
    | proceed =>
      refine .inl ⟨e, .inr rfl, command e ?_⟩
      simp only [step, State.turn, hs] at h
      exact h
    | overflow =>
      simp only [step, State.turn, hs] at h
      cases h
      exact .inr (.inl ⟨e, rfl, rfl⟩)
    | tick v =>
      simp only [step, State.turn, hs] at h
      cases h
      exact .inr (.inr (.inl ⟨v, e, rfl, rfl⟩))
    | reset =>
      simp only [step, State.turn, hs] at h
      cases h
      exact .inr (.inr (.inr ⟨e, rfl, rfl⟩))

end Sys2Proof.Machine
end

