-- ==== Sys2Proof/Laws/PerInstr.lean ====
section
/-! SUPPORT. Statements for all commands, made per constructor. Family `OpcodeField`: the word of a command carries in
bits 63:60 the opcode the map of `30_encoding.md` R53 gives it. -/

namespace Sys2Proof.Laws.OpcodeField

open Sys2Proof

/-- R53: the opcode field of the encoded command is its opcode. -/
def Statement (i : Instr) : Prop := CmdWord.op (encode i) = i.opcode

theorem init (p : Period) : Statement (.init p) := packWord_op ..
theorem setperiod (p : Period) : Statement (.setperiod p) := packWord_op ..
theorem start : Statement .start := packWord_op ..
theorem stop : Statement .stop := packWord_op ..
theorem restart : Statement .restart := packWord_op ..
theorem resume : Statement .resume := packWord_op ..
theorem setpwmduty (ch : Chan) (d : Duty) : Statement (.setpwmduty ch d) := packWord_op ..
theorem enpwm (ch : Chan) (d : Duty) : Statement (.enpwm ch d) := packWord_op ..
theorem enpwmp (ch : Chan) (d : Duty) (p : Period) : Statement (.enpwmp ch d p) := packWord_op ..
theorem dispwm (ch : Chan) : Statement (.dispwm ch) := packWord_op ..
theorem attach (h : Handle) : Statement (.attach h) := packWord_op ..
theorem attachp (h : Handle) (p : Period) : Statement (.attachp h p) := packWord_op ..
theorem detach : Statement .detach := packWord_op ..

end Sys2Proof.Laws.OpcodeField
end

