-- ==== Sys2Proof/Machine/Ports.lean ====
section
/-! DEFINITION. The output ports of `70_reset_and_hazards.md` R156, as far as an event determines them: the valid and
data signals of the cycle that carries the event. No other definition depends on them (log entry 19). -/

namespace Sys2Proof.Machine

/-- The output signals of one cycle: `wr_valid`/`wr_reg`/`wr_mask`/`wr_data`, `pin_valid`/`pin_ch`,
`cb_valid`/`cb_handle`; a group is `some` when its valid signal is 1. -/
structure OutputCycle where
  wr : Option (BitVec 4 × Byte × Byte)
  pin : Option Chan
  cb : Option Handle
deriving DecidableEq, Repr

/-- The signals of the cycle that carries an event (R156). -/
def Event.ports : Event → OutputCycle
  | .w reg mask data => { wr := some (reg.index, mask, data), pin := none, cb := none }
  | .pin ch => { wr := none, pin := some ch, cb := none }
  | .cb h => { wr := none, pin := none, cb := some h }

end Sys2Proof.Machine
end

