-- ==== Sys2Proof/Tests/Slice0.lean ====
section
/-! SUPPORT. The model's own tests: ill-formed written commands, words of `95_test_vectors.md` T8 and T9, one or two
vectors per command from T1 to T7, and a witness for the hypotheses of each statement. Expected values stand in the
spec's tables, which each comment names. -/

namespace Sys2Proof.Tests

open Sys2Proof Sys2Proof.Machine

/-! ### Ill-formed written commands (R52) -/

theorem test_wf_period : (Written.setperiod 4294967296).wf = false ∧ (Written.setperiod 4294967295).wf = true := by
  decide

theorem test_wf_duty : (Written.setpwmduty 2 1024).wf = false ∧ (Written.setpwmduty 2 1023).wf = true := by decide

theorem test_wf_channel : (Written.dispwm 8).wf = false ∧ (Written.dispwm 7).wf = true := by decide

theorem test_wf_handle : (Written.attach 65536).wf = false ∧ (Written.attach 65535).wf = true := by decide

theorem test_wf_each_operand :
    (Written.init (some 4294967296)).wf = false ∧ (Written.enpwm 8 0).wf = false ∧ (Written.enpwm 0 1024).wf = false ∧
      (Written.enpwmp 0 0 4294967296).wf = false ∧ (Written.attachp 65536 0).wf = false ∧
      (Written.attachp 0 4294967296).wf = false := by
  decide

/-- Program P2's first, fifth and eighth words. -/
theorem test_assemble :
    assemble [.enpwmp 0 512 2500, .dispwm 0, .setpwmduty 1 0]
      = some [0x90000200000009C4#64, 0xA000000000000000#64, 0x7200000000000000#64] := by
  decide

theorem test_assemble_refuses : assemble [.start, .dispwm 8] = none := by decide

/-! ### Decoding: the words of T8 and T9 -/

theorem test_decode_period :
    decode 0x10000000000F4240#64 = .instr (.init 1000000#32) ∧
      decode 0x20000000000003E7#64 = .instr (.setperiod 999#32) ∧
      decode 0x20000000FFFFFFFF#64 = .instr (.setperiod 4294967295#32) := by
  decide

theorem test_decode_run :
    decode 0x3000000000000000#64 = .instr .start ∧ decode 0x4000000000000000#64 = .instr .stop ∧
      decode 0x5000000000000000#64 = .instr .restart ∧ decode 0x6000000000000000#64 = .instr .resume := by
  decide

theorem test_decode_pwm :
    decode 0x7A0003FF00000000#64 = .instr (.setpwmduty 5#3 1023#10) ∧
      decode 0x8600010000000000#64 = .instr (.enpwm 3#3 256#10) ∧
      decode 0x900003FF000009C4#64 = .instr (.enpwmp 0#3 1023#10 2500#32) ∧
      decode 0xA400000000000000#64 = .instr (.dispwm 2#3) := by
  decide

theorem test_decode_hook :
    decode 0xB0000ABC00000000#64 = .instr (.attach 0x0ABC#16) ∧
      decode 0xC0001234000005DC#64 = .instr (.attachp 0x1234#16 1500#32) ∧
      decode 0xD000000000000000#64 = .instr .detach := by
  decide

/-- T9: reserved opcodes. -/
theorem test_decode_reserved :
    decode 0x0000000000000000#64 = .reservedOpcode 0#4 ∧ decode 0xE000000000001234#64 = .reservedOpcode 14#4 ∧
      decode 0xFFFFFFFFFFFFFFFF#64 = .reservedOpcode 15#4 := by
  decide

/-- T9: ignored fields. -/
theorem test_decode_ignores :
    decode 0x4FFFFFFFFFFFFFFF#64 = .instr .stop ∧ decode 0x21FF0000000009C4#64 = .instr (.setperiod 2500#32) ∧
      decode 0x7400FE0000000000#64 = .instr (.setpwmduty 2#3 512#10) ∧
      decode 0xAE00000000000000#64 = .instr (.dispwm 7#3) := by
  decide

/-- T8, the other way. -/
theorem test_encode :
    encode (.setpwmduty 2#3 512#10) = 0x7400020000000000#64 ∧ encode (.enpwm 7#3 100#10) = 0x8E00006400000000#64 ∧
      encode (.attachp 0x1234#16 1500#32) = 0xC0001234000005DC#64 ∧ encode .detach = 0xD000000000000000#64 := by
  decide

theorem test_decodeTableWord :
    decodeTableWord 64 0x9E000200000009C4 = some (.enpwmp 7#3 512#10 2500#32) ∧
      decodeTableWord 64 0xF000000000000000 = none := by
  decide

/-! ### A small state -/

/-- The defaults of R4, with a byte that stands for `PLLCFG_96MHZ`. -/
def params : Params := ⟨true, .ten, 16000000, 0x5A#8, false⟩

/-- Every register holds something, reserved bits among them. -/
def regs : RegSet where
  ctrl := 0xD0#8
  temph := 0x03#8
  top := 625#16
  cnt := 341#16
  cmp0 := 100#16
  cmp1 := 101#16
  cmp2 := 102#16
  imask := 0x00#8
  outen := 0xC0#8
  pwmen := 0xF8#8
  clksrc := 0xFC#8
  pllcfg := 0x11#8

/-- A stopped unit whose period was set to 2500 microseconds (T3). -/
def idle : State where
  params := params
  block := ⟨6#4, 625#16, true, .stopped, none⟩
  regs := regs
  trace := []
  env := []
  cmds := []
  resets := 0

/-- The idle unit with another selector code and another `CTRL`. -/
def idleWith (cs : CsCode) (ctrl : Byte) : State :=
  { idle with block := { idle.block with cfgCs := cs }, regs := { regs with ctrl := ctrl } }

/-- A running unit with an attached callback, and an environment that will act. -/
def busy (env : List EnvInput) : State :=
  { idle with
    block := { idle.block with run := .running, handle := some 0x1234#16 }
    regs := { regs with ctrl := 0xD6#8, imask := 0x01#8 }
    env := env }

/-- The inert unit. -/
def inert (env : List EnvInput) : State := { busy env with params := { params with variantPresent := false } }

/-- The state an outcome leaves. -/
def landing (s : State) : Host.Outcome State Fault Refusal → State
  | .next t => t
  | .fault _ => s
  | .refused _ => s

/-- The state after a command. -/
def after (i : Instr) (s : State) : State := landing s (exec i s)

/-- The state after a step. -/
def stepped (s : State) : State := landing s (step s)

/-! ### One or two vectors per command -/

/-- T1, every row's source and multiplier, and the PLL write for both values of `PLLCFG_IN_HALF_BRANCH`. -/
theorem test_clockChoice :
    clockChoice params 0 = ⟨.pllFull, 48, true⟩ ∧ clockChoice params 999 = ⟨.pllFull, 48, true⟩ ∧
      clockChoice params 1000 = ⟨.pllHalf, 24, false⟩ ∧ clockChoice params 1999 = ⟨.pllHalf, 24, false⟩ ∧
      clockChoice { params with pllcfgInHalfBranch := true } 1500 = ⟨.pllHalf, 24, true⟩ ∧
      clockChoice params 2000 = ⟨.base, 8, false⟩ ∧ clockChoice params 4294967295 = ⟨.base, 8, false⟩ := by
  decide

/-- T2, at the edges. -/
theorem test_resolve :
    resolve 1024 0 = ⟨1#4, 0, false⟩ ∧ resolve 1024 1023 = ⟨1#4, 1023, false⟩ ∧ resolve 1024 1024 = ⟨2#4, 512, false⟩ ∧
      resolve 1024 8388607 = ⟨14#4, 1023, false⟩ ∧ resolve 1024 8388608 = ⟨15#4, 512, false⟩ ∧
      resolve 1024 16777215 = ⟨15#4, 1023, false⟩ ∧ resolve 1024 16777216 = ⟨15#4, 1023, true⟩ := by
  decide

/-- T3b: other parameter values. -/
theorem test_resolve_parameters :
    resolvePeriod { params with counterBits := .sixteen } 999 = ⟨1#4, 47952, false⟩ ∧
      resolvePeriod { params with counterBits := .sixteen } 134217728 = ⟨15#4, 65535, true⟩ ∧
      resolvePeriod { params with baseClockHz := 8000000 } 2500 = ⟨5#4, 625, false⟩ ∧
      resolvePeriod { params with baseClockHz := 16500000 } 2500 = ⟨6#4, 625, false⟩ := by
  decide

/-- S3: the realized period of 1500 microseconds is 1498.6667. -/
theorem test_realizedPeriod : realizedPeriod params 1500 = 4496 / 3 := by
  have h : resolvePeriod params 1500 = ⟨7#4, 562, false⟩ := by decide
  have h' : clockChoice params 1500 = ⟨.pllHalf, 24, false⟩ := by decide
  rw [realizedPeriod, h, h']
  norm_num [ratioOf, sourceHz, Config.pllHz]

/-- R78's example. -/
theorem test_init :
    (after (.init 1000000#32) idle).trace = [.w .clksrc 0x03#8 0x00#8, .w .temph 0xFF#8 0x03#8, .w .topl 0xFF#8 0xD0#8] ∧
      (after (.init 1000000#32) idle).block = ⟨14#4, 976#16, true, .stopped, none⟩ := by
  decide

/-- T3, row 999: the PLL write comes second; the reserved bits of CLKSRC stay. -/
theorem test_setperiod_pll :
    (after (.setperiod 999#32) idle).trace =
        [.w .clksrc 0x03#8 0x01#8, .w .pllcfg 0xFF#8 0x5A#8, .w .temph 0xFF#8 0x02#8, .w .topl 0xFF#8 0xED#8] ∧
      (after (.setperiod 999#32) idle).regs =
        { regs with clksrc := 0xFD#8, pllcfg := 0x5A#8, temph := 0x02#8, top := 749#16 } := by
  decide

/-- T3, row 536870912: a product of 2^32 saturates, it does not wrap (D5). -/
theorem test_setperiod_saturates :
    (after (.setperiod 536870912#32) idle).status = ⟨15#4, 1023#16, .stopped⟩ ∧
      (after (.setperiod 536870912#32) idle).regs.top = 1023#16 := by
  decide

/-- T4: the full-register write clears bits 7:6 too, whatever CTRL was. -/
theorem test_start :
    (after .start (idleWith 6#4 0xD6#8)).trace =
        [.w .temph 0xFF#8 0x00#8, .w .cntl 0xFF#8 0x00#8, .w .ctrl 0xFF#8 0x00#8, .w .ctrl 0x3F#8 0x16#8] ∧
      (after .start (idleWith 6#4 0xD6#8)).regs = { regs with temph := 0x00#8, cnt := 0#16, ctrl := 0x16#8 } := by
  decide

/-- T7: around `START()` a `CB` may stand before each of the two CTRL writes, never inside the pair; the overflow that
falls into the pair is delivered right after it. -/
theorem test_start_interleaved :
    (after .start (busy [.overflow, .proceed, .overflow])).trace =
      [.w .temph 0xFF#8 0x00#8, .w .cntl 0xFF#8 0x00#8, .cb 0x1234#16, .w .ctrl 0xFF#8 0x00#8, .cb 0x1234#16,
        .w .ctrl 0x3F#8 0x16#8] := by
  decide

/-- T4: `STOP()` from 0xD6. -/
theorem test_stop :
    (after .stop (idleWith 6#4 0xD6#8)).trace = [.w .ctrl 0x0F#8 0x00#8] ∧
      (after .stop (idleWith 6#4 0xD6#8)).regs = { regs with ctrl := 0xD0#8 } := by
  decide

/-- T4: `RESTART()` with code 1 from 0x1F. -/
theorem test_restart :
    (after .restart (idleWith 1#4 0x1F#8)).regs = { regs with temph := 0x00#8, cnt := 0#16, ctrl := 0x11#8 } ∧
      (after .restart (idleWith 1#4 0x1F#8)).block.run = .running := by
  decide

/-- T4: `RESUME()` with code 1 from 0xC0. -/
theorem test_resume :
    (after .resume (idleWith 1#4 0xC0#8)).trace = [.w .ctrl 0x3F#8 0x11#8] ∧
      (after .resume (idleWith 1#4 0xC0#8)).regs = { regs with ctrl := 0xD1#8 } := by
  decide

/-- T5. -/
theorem test_physDuty :
    physDuty 0 1023 = 0 ∧ physDuty 1 1023 = 0 ∧ physDuty 625 512 = 312 ∧ physDuty 625 1023 = 624 ∧
      physDuty 1000 100 = 97 ∧ physDuty 65535 1023 = 65471 := by
  decide

/-- T6: `SETPWMDUTY(2, 512)` with `cfg_top` 625. -/
theorem test_setpwmduty :
    (after (.setpwmduty 2#3 512#10) idle).trace = [.w .temph 0xFF#8 0x01#8, .w .cmpl1 0xFF#8 0x38#8] ∧
      (after (.setpwmduty 2#3 512#10) idle).regs = { regs with temph := 0x01#8, cmp1 := 312#16 } := by
  decide

/-- T6: `SETPWMDUTY(4, 1023)` with `cfg_top` 1023. -/
theorem test_setpwmduty_full :
    (after (.setpwmduty 4#3 1023#10) { idle with block := { idle.block with cfgTop := 1023#16 } }).trace =
      [.w .temph 0xFF#8 0x03#8, .w .cmpl2 0xFF#8 0xFE#8] := by
  decide

/-- T6: `ENPWM(5, 512)`. -/
theorem test_enpwm :
    (after (.enpwm 5#3 512#10) idle).trace =
        [.w .pwmen 0x04#8 0x04#8, .w .outen 0x20#8 0x20#8, .pin 5#3, .w .temph 0xFF#8 0x01#8,
          .w .cmpl2 0xFF#8 0x38#8] ∧
      (after (.enpwm 6#3 512#10) idle).trace = [] := by
  decide

/-- T6: `ENPWMP(3, 512, 999)` takes the duty against the new top, and `ENPWMP(7, 512, 2500)` is its period part. -/
theorem test_enpwmp :
    (after (.enpwmp 3#3 512#10 999#32) idle).trace =
        [.w .clksrc 0x03#8 0x01#8, .w .pllcfg 0xFF#8 0x5A#8, .w .temph 0xFF#8 0x02#8, .w .topl 0xFF#8 0xED#8,
          .w .pwmen 0x02#8 0x02#8, .w .outen 0x08#8 0x08#8, .pin 3#3, .w .temph 0xFF#8 0x01#8,
          .w .cmpl1 0xFF#8 0x76#8] ∧
      (after (.enpwmp 7#3 512#10 2500#32) idle).trace =
        [.w .clksrc 0x03#8 0x00#8, .w .temph 0xFF#8 0x02#8, .w .topl 0xFF#8 0x71#8] := by
  decide

/-- T6: `DISPWM(3)`, and `DISPWM(6)`. -/
theorem test_dispwm :
    (after (.dispwm 3#3) { idle with regs := { regs with outen := 0xFF#8 } }).regs = { regs with outen := 0xF7#8 } ∧
      (after (.dispwm 3#3) idle).trace = [.w .outen 0x08#8 0x00#8] ∧ after (.dispwm 6#3) idle = idle := by
  decide

/-- T7: `ATTACH(0x0000)` replaces the handle and rewrites the whole mask register. -/
theorem test_attach :
    (after (.attach 0x0000#16) (busy [])).block.handle = some 0x0000#16 ∧
      (after (.attach 0x1234#16) { idle with regs := { regs with imask := 0xFE#8 } }).regs = { regs with imask := 0x01#8 } := by
  decide

/-- T7: `ATTACHP(0xBEEF, 1500)`. -/
theorem test_attachp :
    (after (.attachp 0xBEEF#16 1500#32) idle).trace =
        [.w .clksrc 0x03#8 0x02#8, .w .temph 0xFF#8 0x02#8, .w .topl 0xFF#8 0x32#8, .w .imask 0xFF#8 0x01#8] ∧
      (after (.attachp 0xBEEF#16 1500#32) idle).block = ⟨7#4, 562#16, true, .stopped, some 0xBEEF#16⟩ := by
  decide

/-- T7: `DETACH()` keeps the handle. -/
theorem test_detach :
    (after .detach (busy [])).trace = [.w .imask 0xFF#8 0x00#8] ∧
      (after .detach (busy [])).block.handle = some 0x1234#16 := by
  decide

/-- T7: `OvfDeliver` as a step of its own, enabled and not. -/
theorem test_overflow :
    (stepped (busy [.overflow])).trace = [.cb 0x1234#16] ∧ (stepped { idle with env := [.overflow] }).trace = [] := by
  decide

/-- T7: an overflow that falls into the pair of `SETPERIOD(2500)` is left for a step after it. -/
theorem test_overflow_in_pair :
    (after (.setperiod 2500#32) (busy [.proceed, .proceed, .overflow])).trace =
        [.w .clksrc 0x03#8 0x00#8, .w .temph 0xFF#8 0x02#8, .w .topl 0xFF#8 0x71#8] ∧
      (stepped (after (.setperiod 2500#32) (busy [.proceed, .proceed, .overflow]))).trace =
        [.w .clksrc 0x03#8 0x00#8, .w .temph 0xFF#8 0x02#8, .w .topl 0xFF#8 0x71#8, .cb 0x1234#16] := by
  decide

/-- R140: a reset inside the pair leaves the high byte's event and nothing after it. -/
theorem test_reset_in_pair :
    (after (.setpwmduty 2#3 512#10) (busy [.reset])).trace = [.w .temph 0xFF#8 0x01#8] ∧
      (after (.setpwmduty 2#3 512#10) (busy [.reset])).block.handle = none := by
  decide

/-- The first instruction after reset, through the command port. -/
theorem test_first_instruction :
    (stepped (State.reset.withFetchWord 64 0x4000000000000000)).trace = [.w .ctrl 0x0F#8 0x00#8] := by
  decide

/-- R15, R156: the register index on the write port. -/
theorem test_ports :
    (Event.w .pllcfg 0xFF#8 0x5A#8).ports = ⟨some (11#4, 0xFF#8, 0x5A#8), none, none⟩ ∧
      (Event.pin 5#3).ports = ⟨none, some 5#3, none⟩ ∧ (Event.cb 0x1234#16).ports = ⟨none, none, some 0x1234#16⟩ := by
  decide

/-- R100: the channel table. -/
theorem test_channels :
    channelComparator 1#3 = some .k0 ∧ channelComparator 4#3 = some .k2 ∧ channelComparator 6#3 = none ∧
      channelPolarity 4#3 = .trueOutput ∧ channelPolarity 5#3 = .complementary := by
  decide

/-! ### Witnesses: a state and operands that meet the hypotheses of each statement, at the edges of its clauses -/

/-- A busy unit whose environment delivers, moves the counter, and lets go. -/
def active : State := busy [.overflow, .tick 1023#16, .proceed, .overflow]

theorem witness_DecodeThenEncodeClearsIgnoredBits :
    decode 0x9FFFFFFFFFFFFFFF#64 = .instr (.enpwmp 7#3 1023#10 0xFFFFFFFF#32) := by decide

theorem witness_UnusedBitsAreIgnored :
    0x4FFFFFFFFFFFFFFF#64 &&& usedBits (CmdWord.op 0x4FFFFFFFFFFFFFFF#64)
      = 0x4000000000000000#64 &&& usedBits (CmdWord.op 0x4FFFFFFFFFFFFFFF#64) := by decide

theorem witness_StepRunsTheDecodedCommand :
    { idle with cmds := [0x4000000000000000#64] }.cmds = [0x4000000000000000#64] ∧
      decode 0x4000000000000000#64 = .instr .stop ∧ idle.env = [] ∧ (busy [.proceed]).env = [.proceed] := by decide

theorem witness_ReservedOpcodesAreIgnored :
    { busy [.proceed] with cmds := [0xF000000000000001#64] }.turn
        = .command { busy [] with cmds := [0xF000000000000001#64] } ∧
      CmdWord.op 0xF000000000000001#64 = 15#4 ∧ CmdWord.op 0xE000000000000000#64 = 14#4 ∧
      CmdWord.op 0x0FFFFFFFFFFFFFFF#64 = 0#4 ∧ { idle with cmds := [0#64] }.env = [] := by decide

theorem witness_NothingOfferedNothingHappens : idle.env = [] ∧ idle.cmds = [] := by decide

theorem witness_InertUnitIgnoresEverything :
    (inert [.overflow]).params.variantPresent = false ∧ (inert [.overflow]).env = [.overflow] ∧
      { inert [] with cmds := [0xB000123400000000#64] }.env = [] := by decide

theorem witness_OverflowDeliversTheHandle :
    (busy [.overflow]).params.variantPresent = true ∧ (busy [.overflow]).env = [.overflow] ∧
      (busy [.overflow]).regs.imask.getLsbD 0 = true ∧ (busy [.overflow]).block.handle = some 0x1234#16 ∧
      { idle with env := [.overflow] }.regs.imask.getLsbD 0 = false := by decide

theorem witness_CounterMovesOnlyWhileClocked :
    (busy [.tick 1023#16]).env = [.tick 1023#16] ∧ (busy [.tick 1023#16]).regs.ctrl.extractLsb' 0 4 ≠ 0#4 ∧
      (1023#16).toNat < 2 ^ params.counterBits.bits ∧ idle.regs.ctrl.extractLsb' 0 4 = 0#4 := by decide

theorem witness_ResetInputGivesTheResetState : (busy [.reset, .overflow]).env = [.reset, .overflow] := by decide

theorem witness_EveryStepKeepsTheInvariants :
    { active with cmds := [0x3000000000000000#64] }.Inv ∧
      ∃ t, step { active with cmds := [0x3000000000000000#64] } = .next t :=
  ⟨⟨⟨by decide, by decide, by decide, by decide, by decide, by decide⟩, by decide, fun _ => by decide,
    fun _ => by decide, fun _ => by decide, nofun, fun _ => by decide⟩, ⟨_, rfl⟩⟩

theorem witness_EveryStepKeepsPairsWhole :
    NoReset active.env ∧ pairsWhole [.w .temph 0xFF#8 0x02#8, .w .topl 0xFF#8 0x71#8, .cb 0x1234#16] = true ∧
      ∃ t, step { active with trace := [.w .temph 0xFF#8 0x02#8, .w .topl 0xFF#8 0x71#8, .cb 0x1234#16] } = .next t :=
  ⟨by decide, by decide, ⟨_, rfl⟩⟩

theorem witness_NoStepChangesTheParameters : ∃ t, step (busy [.reset]) = .next t := ⟨_, rfl⟩

theorem witness_EveryStepExtendsTheTrace : ∃ t, step active = .next t := ⟨_, rfl⟩

/-- A command during which the environment acts, and its silent run. -/
theorem witness_EnvironmentOnlyInterleavesOrResets :
    active.params.variantPresent = true ∧
      (∃ u, exec .stop { active with env := [] } = .next u ∧ u.trace = active.trace ++ [.w .ctrl 0x0F#8 0x00#8]) ∧
      ∃ t, exec .stop active = .next t :=
  ⟨by decide, ⟨_, rfl, by decide⟩, ⟨_, rfl⟩⟩

theorem witness_CommandsNeverReadTheRegisterSet :
    NoReset active.env ∧ ∃ t, exec (.enpwm 5#3 1023#10) active = .next t := ⟨by decide, ⟨_, rfl⟩⟩

theorem witness_NoCommandReadsRun : idle.env = [] ∧ ∃ t, exec .resume idle = .next t := ⟨by decide, ⟨_, rfl⟩⟩

theorem witness_MaskedOverflowsAreLost :
    { idle with env := [.overflow] }.regs.imask.getLsbD 0 = false ∧ storesHandle .detach = none ∧
      ∃ t, exec .detach { idle with env := [.overflow] } = .next t ∧ t.trace = idle.trace ++ [.w .imask 0xFF#8 0x00#8] :=
  ⟨by decide, by decide, ⟨_, rfl, by decide⟩⟩

/-- A callback with the handle stored before the command, and one with the handle the command attaches. -/
theorem witness_CallbacksCarryTheStoredHandle :
    (∃ t, exec .resume (busy [.overflow]) = .next t ∧
        t.trace = (busy [.overflow]).trace ++ [.w .ctrl 0x3F#8 0x16#8, .cb 0x1234#16]) ∧
      ∃ t, exec (.attach 0xBEEF#16) (busy [.overflow]) = .next t ∧
        t.trace = (busy [.overflow]).trace ++ [.cb 0xBEEF#16, .w .imask 0xFF#8 0x01#8] :=
  ⟨⟨_, rfl, by decide⟩, ⟨_, rfl, by decide⟩⟩

theorem witness_ConfigWrittenOnlyByPeriodSetting :
    setsPeriod .start = false ∧ NoReset active.env ∧ ∃ t, exec .start active = .next t :=
  ⟨by decide, by decide, ⟨_, rfl⟩⟩

theorem witness_RunAndHandleWriters :
    NoReset active.env ∧ (∃ t, exec .detach active = .next t) ∧ setsRun .detach = false ∧ storesHandle .detach = none :=
  ⟨by decide, ⟨_, rfl⟩, by decide, by decide⟩

theorem witness_RegistersWrittenOnlyByTheirCommands :
    NoReset (busy [.overflow]).env ∧ NoTick (busy [.overflow]).env ∧ setsPeriod .stop = false ∧
      setsRun .detach = false ∧ (∃ t, exec .stop (busy [.overflow]) = .next t) ∧
      ∃ t, exec (.setperiod 0#32) (busy [.overflow]) = .next t :=
  ⟨by decide, by decide, by decide, by decide, ⟨_, rfl⟩, ⟨_, rfl⟩⟩

theorem witness_ReservedBitsAreNeverWritten :
    NoReset active.env ∧ ∃ t, exec (.enpwmp 5#3 1023#10 999#32) active = .next t := ⟨by decide, ⟨_, rfl⟩⟩

/-- One event for each of the statement's clauses. -/
theorem witness_EmittedEventsAreLegal :
    (∃ t, exec (.enpwm 5#3 512#10) idle = .next t ∧
        t.trace = idle.trace ++ [.w .pwmen 0x04#8 0x04#8, .w .outen 0x20#8 0x20#8, .pin 5#3, .w .temph 0xFF#8 0x01#8,
          .w .cmpl2 0xFF#8 0x38#8]) ∧
      (∃ t, exec (.attachp 1#16 1500#32) idle = .next t ∧
        t.trace = idle.trace ++ [.w .clksrc 0x03#8 0x02#8, .w .temph 0xFF#8 0x02#8, .w .topl 0xFF#8 0x32#8,
          .w .imask 0xFF#8 0x01#8]) ∧
      ∃ t, exec .resume (idleWith 15#4 0x00#8) = .next t ∧ t.trace = idle.trace ++ [.w .ctrl 0x3F#8 0x1F#8] :=
  ⟨⟨_, rfl, by decide⟩, ⟨_, rfl, by decide⟩, ⟨_, rfl, by decide⟩⟩

theorem witness_WriteWideLatchesTheValue :
    NoReset (busy [.overflow]).env ∧ (1023#16).toNat < (busy [.overflow]).params.res ∧
      NoTick (busy [.overflow]).env ∧ WideReg.cnt ≠ WideReg.top := by decide

theorem witness_WritesAreIdempotentButForTheLatch :
    (0x02#8).toNat < 2 ^ params.hiBits ∧ (0x02#8) ≠ regs.temph := by decide

theorem witness_ClockChoiceBands :
    999 < 1000 ∧ 1000 ≤ 1000 ∧ 1999 < 2000 ∧ 2000 ≤ 2000 ∧ ¬ 1000 < 1000 ∧ ¬ 2000 < 2000 := by decide

/-- The first tier at its last count, the last tier at its last count, and the first count that fits none. -/
theorem witness_ResolveTakesTheFirstFittingTier :
    1024 * 2 ^ 0 > 1023 ∧ (1024 * 2 ^ 14 > 16777215 ∧ ∀ j, j < 14 → ¬ 1024 * 2 ^ j > 16777215) ∧
      ∀ i, i < 15 → ¬ 1024 * 2 ^ i > 16777216 := by decide

theorem witness_ResolverLaws :
    (resolve params.res 1024).saturated = false ∧ 2 ≤ (resolve params.res 1024).code.toNat ∧
      (resolve params.res 16777215).saturated = false ∧ (resolve params.res 16777216).saturated = true ∧
      (∃ j, j < 15 ∧ 1024 / 2 ^ j ≤ params.res - 1) := by
  refine ⟨by decide, by decide, by decide, by decide, 1, by decide, by decide⟩

theorem witness_SaturationOfPeriods :
    1999 < 2000 ∧ 2000 ≤ 2097151 ∧ (resolvePeriod params 2097151).saturated = false ∧
      (resolvePeriod params 2097152).saturated = true := by decide

theorem witness_RealizedPeriodIsWithinOneTick :
    0 < params.baseClockHz ∧ 2000000 ∣ params.baseClockHz ∧ (resolvePeriod params 2097151).saturated = false := by decide

theorem witness_PhysDutyLaws : 1023 ≤ 1023 ∧ 0 < 1 ∧ 1 ≤ 1024 ∧ 1024 ≤ 1024 := by decide

/-- The premises of the commands without operands, of ATTACH, ATTACHP, DETACH and of SETPERIOD. -/
theorem witness_SetPeriodCompletes :
    Instr.init 0#32 = .init 0#32 ∧ active.params.variantPresent = true ∧ NoReset active.env ∧
      CmdWord.op 0x10000000000F4240#64 = 1#4 ∧ CmdWord.op 0x2000000000000000#64 = 2#4 := by decide

theorem witness_StartCompletes :
    Instr.restart = .restart ∧ active.params.variantPresent = true ∧ NoReset active.env ∧
      CmdWord.op 0x3000000000000000#64 = 3#4 ∧ CmdWord.op 0x5000000000000000#64 = 5#4 := by decide

theorem witness_StopCompletes :
    active.params.variantPresent = true ∧ NoReset active.env ∧ CmdWord.op 0x4FFFFFFFFFFFFFFF#64 = 4#4 := by decide

theorem witness_ResumeCompletes :
    active.params.variantPresent = true ∧ NoReset active.env ∧ CmdWord.op 0x6000000000000000#64 = 6#4 := by decide

/-- Channels 0 and 5 are the edges of the supported ones, 6 the first unsupported; the counter-top value is the largest. -/
theorem witness_SetPwmDutyCompletes :
    active.params.variantPresent = true ∧ NoReset active.env ∧ Comparator.k0.index = (0#3).toNat / 2 ∧
      Comparator.k2.index = (5#3).toNat / 2 ∧ (1023#16).toNat < active.params.res ∧
      active.block.cfgTop.toNat < active.params.res ∧ 5 < (6#3).toNat ∧
      CmdWord.op 0x7A0003FF00000000#64 = 7#4 := by decide

theorem witness_EnablePwmCompletes :
    active.params.variantPresent = true ∧ NoReset active.env ∧ Comparator.k1.index = (3#3).toNat / 2 ∧
      active.block.cfgTop.toNat < active.params.res ∧ 5 < (7#3).toNat ∧
      CmdWord.op 0x8E00006400000000#64 = 8#4 := by decide

theorem witness_EnablePwmPeriodCompletes :
    active.params.variantPresent = true ∧ NoReset active.env ∧ Comparator.k2.index = (4#3).toNat / 2 ∧
      5 < (6#3).toNat ∧ CmdWord.op 0x900003FF000009C4#64 = 9#4 := by decide

theorem witness_DisablePwmCompletes :
    active.params.variantPresent = true ∧ NoReset active.env ∧ (5#3).toNat ≤ 5 ∧ 5 < (6#3).toNat ∧
      CmdWord.op 0xA400000000000000#64 = 10#4 := by decide

theorem witness_UnsupportedChannelsAreIgnored : 5 < (6#3).toNat ∧ 5 < (7#3).toNat ∧ ¬ 5 < (5#3).toNat := by decide

theorem witness_AttachCompletes :
    active.params.variantPresent = true ∧ NoReset active.env ∧ CmdWord.op 0xB0000ABC00000000#64 = 11#4 := by decide

theorem witness_AttachPeriodCompletes :
    active.params.variantPresent = true ∧ NoReset active.env ∧ CmdWord.op 0xC0001234000005DC#64 = 12#4 := by decide

theorem witness_DetachCompletes :
    active.params.variantPresent = true ∧ NoReset active.env ∧ CmdWord.op 0xD000000000000000#64 = 13#4 := by decide

theorem witness_EventCountsAreExact : active.params.variantPresent = true ∧ NoReset active.env := by decide

theorem witness_PseudoForms : idle.env = [] := by decide

theorem witness_StopThenResume :
    active.params.variantPresent = true ∧ NoReset active.env ∧ active.block.cfgValid = true := by decide

theorem witness_DisableThenEnableAgain :
    active.params.variantPresent = true ∧ NoReset active.env ∧ (5#3).toNat ≤ 5 ∧
      active.block.cfgTop.toNat < active.params.res := by decide

end Sys2Proof.Tests
end

/-! PROOF. The register set under writes (`20_memory.md`): what one write event changes (R31, R32), and that a
`WriteWide` pair leaves its value in the target whatever the counter does between the two events (R36). -/

namespace Sys2Proof.Machine

/-! ### The bytes of a wide value, as numbers -/

theorem latched_eq_ofNat (t d : Byte) : latched t d = BitVec.ofNat 16 (t.toNat * 256 + d.toNat) := by
  rw [← latched_toNat, BitVec.ofNat_toNat, BitVec.setWidth_eq]

theorem wideHigh_eq_ofNat (v : Wide) : wideHigh v = BitVec.ofNat 8 (v.toNat / 256) := by
  rw [← wideHigh_toNat, BitVec.ofNat_toNat, BitVec.setWidth_eq]

theorem wideLow_eq_ofNat (v : Wide) : wideLow v = BitVec.ofNat 8 (v.toNat % 256) := by
  rw [← wideLow_toNat, BitVec.ofNat_toNat, BitVec.setWidth_eq]

theorem and_tempMask_eq_ofNat (P : Params) (d : Byte) :
    d &&& P.tempMask = BitVec.ofNat 8 (d.toNat % 2 ^ P.hiBits) := by
  rw [← toNat_and_tempMask, BitVec.ofNat_toNat, BitVec.setWidth_eq]

/-! ### One write event -/

/-- Settles O31: the byte registers by the definition of the masked write, `TEMPH` and the low-byte locations by the
numbers their bytes stand for. -/
theorem writeChangesOneRegister : Obligations.WriteChangesOneRegister := by
  intro P r m d
  have htemph := and_tempMask_eq_ofNat P d
  have hlatch := latched_eq_ofNat r.temph d
  refine ⟨rfl, rfl, rfl, rfl, rfl, rfl, ?_, ?_, ?_, ?_, ?_, ?_⟩
  · rw [← htemph]; rfl
  all_goals rw [← hlatch]; rfl

/-- R32, R34: a low-byte write latches `TEMPH` and its data into its own wide register and changes no other. -/
theorem RegSet.write_low_wideValue (P : Params) (r : RegSet) (reg reg' : WideReg) (m d : Byte) :
    (r.write P reg.low m d).wideValue reg' = if reg' = reg then latched r.temph d else r.wideValue reg' := by
  rcases reg with _ | _ | (_ | _ | _) <;> rcases reg' with _ | _ | (_ | _ | _) <;> rfl

theorem RegSet.write_temph_wideValue (P : Params) (r : RegSet) (reg : WideReg) (m d : Byte) :
    (r.write P .temph m d).wideValue reg = r.wideValue reg := by
  rcases reg with _ | _ | (_ | _ | _) <;> rfl

/-! ### The pair -/

/-- R36: the two writes of a pair, one after the other, leave `v` in the target and no other wide register changed. -/
theorem Action.regs_wide_wideValue (P : Params) (r : RegSet) (reg reg' : WideReg) (v : Wide) (hv : fits P v) :
    (Action.regs P (.wide reg v) r).wideValue reg' = if reg' = reg then v else r.wideValue reg' := by
  have htemph : (r.write P .temph 0xFF#8 (wideHigh v)).temph = wideHigh v := wideHigh_keeps P v hv
  rw [Action.regs, RegSet.write_low_wideValue, RegSet.write_temph_wideValue, htemph, latched_high_low]

/-- R34, R36: of the byte-wide registers a pair changes `TEMPH` alone, to the high byte of `v`. -/
theorem Action.regs_wide_bytes (P : Params) (r : RegSet) (reg : WideReg) (v : Wide) (hv : fits P v) :
    (Action.regs P (.wide reg v) r).temph = wideHigh v ∧
    (Action.regs P (.wide reg v) r).ctrl = r.ctrl ∧ (Action.regs P (.wide reg v) r).imask = r.imask ∧
    (Action.regs P (.wide reg v) r).outen = r.outen ∧ (Action.regs P (.wide reg v) r).pwmen = r.pwmen ∧
    (Action.regs P (.wide reg v) r).clksrc = r.clksrc ∧ (Action.regs P (.wide reg v) r).pllcfg = r.pllcfg := by
  have htemph := wideHigh_keeps P v hv
  rcases reg with _ | _ | (_ | _ | _) <;> exact ⟨htemph, rfl, rfl, rfl, rfl, rfl, rfl⟩

theorem Action.events_wide (reg : WideReg) (v : Wide) :
    Action.events (.wide reg v) = [.w .temph 0xFF#8 (BitVec.ofNat 8 (v.toNat / 256)),
      .w reg.low 0xFF#8 (BitVec.ofNat 8 (v.toNat % 256))] := by
  rw [← wideHigh_eq_ofNat, ← wideLow_eq_ofNat]; rfl

/-- R19: a wide register is what the command left in it, unless it is the counter and the counter may move. -/
theorem AfterCommand.wideValue_eq {s t : State} {b : Block} {r : RegSet} {es : List Event}
    (h : AfterCommand s t b r es) (reg : WideReg) (hn : reg = .cnt → NoTick s.env) :
    t.regs.wideValue reg = r.wideValue reg := by
  obtain _ | _ | k := reg
  case cnt => exact h.cnt (hn rfl)
  all_goals rw [h.regs]
  · rfl
  · cases k <;> rfl

/-- R32, R36: the low-byte event latches `v` into the target even when that is the counter and the counter moved between
the two events, for `TEMPH` did not. -/
theorem State.writeWide_target {s t : State} {reg : WideReg} {v : Wide} (hv : fits s.params v)
    (h : s.writeWide reg v = .go t) : t.regs.wideValue reg = v := by
  rw [State.writeWide] at h
  obtain ⟨u, hu, ha, -⟩ | ⟨u, hu, -⟩ := pairPoint_cases s.env (s.emitW .temph 0xFF#8 (wideHigh v))
  · rw [hu] at h
    cases h
    have htemph : u.regs.temph = wideHigh v := by rw [ha.regs]; exact wideHigh_keeps s.params v hv
    rw [State.emitW_regs, RegSet.write_low_wideValue, if_pos rfl, htemph, latched_high_low]
  · rw [hu] at h
    cases h

/-- Settles O32: a pair not dropped by a reset happens whole (`State.writeWide_cases`); the environment moved at most
the counter, and the target's value is latched after that. -/
theorem writeWideLatchesTheValue : Obligations.WriteWideLatchesTheValue := by
  intro s reg v hreset hv
  obtain ⟨t, ht, ha, htrace⟩ | ⟨t, -, ha⟩ := s.writeWide_cases reg v
  case inr => exact absurd ha.came hreset
  obtain ⟨htemph, hbytes⟩ := Action.regs_wide_bytes s.params s.regs reg v hv
  refine ⟨t, ht, ?_, State.writeWide_target hv ht, ?_, ha.block, fun reg' hne hn => ?_, ?_⟩
  · rw [htrace, Action.events_wide]
  · rw [ha.regs, ← wideHigh_toNat]; exact congrArg BitVec.toNat htemph
  · rw [ha.wideValue_eq reg' hn, Action.regs_wide_wideValue _ _ _ _ _ hv, if_neg hne]
  · rw [ha.regs]; exact hbytes

end Sys2Proof.Machine

/-! PROOF. The reserved opcodes (`30_encoding.md` R54): how a word that carries one decodes, and what the command agent
does with it. -/

namespace Sys2Proof

/-- R53, R54: the opcode map has no entry for 0, 14 and 15. -/
theorem decode_of_reserved_op {w : CmdWord}
    (h : CmdWord.op w = 0#4 ∨ CmdWord.op w = 14#4 ∨ CmdWord.op w = 15#4) :
    decode w = .reservedOpcode (CmdWord.op w) := by
  rw [decode]
  rcases h with h | h | h <;> rw [h] <;> rfl

end Sys2Proof

namespace Sys2Proof.Machine

theorem State.turn_of_env_nil {s : State} (h : s.env = []) : s.turn = .command s := by
  rw [State.turn, h]

theorem State.accept_of_cmds_cons {s : State} {w : CmdWord} {ws : List CmdWord} (h : s.cmds = w :: ws) :
    s.accept = some (w, { s with cmds := ws }) := by
  rw [State.accept, h]

/-- R54: on its turn the command agent takes a reserved word off the port and does nothing else. -/
theorem step_of_decode_reserved {s t u : State} {w : CmdWord} {op : BitVec 4} (hturn : s.turn = .command t)
    (haccept : t.accept = some (w, u)) (hdecode : decode w = .reservedOpcode op) : step s = .next u := by
  simp only [step, hturn, haccept, hdecode]

/-- Settles O8: a reserved opcode decodes to no command; the all-zero word is the one of opcode 0, on a turn that the
silent environment leaves to the command agent. -/
theorem reservedOpcodesAreIgnored : Obligations.ReservedOpcodesAreIgnored := by
  have ignored : ∀ (s t : State) (w : CmdWord) (ws : List CmdWord), s.turn = .command t → t.cmds = w :: ws →
      (CmdWord.op w = 0#4 ∨ CmdWord.op w = 14#4 ∨ CmdWord.op w = 15#4) → step s = .next { t with cmds := ws } :=
    fun _ _ _ _ hturn hcmds hop =>
      step_of_decode_reserved hturn (State.accept_of_cmds_cons hcmds) (decode_of_reserved_op hop)
  have zero_op : CmdWord.op 0#64 = 0#4 := by decide
  exact ⟨ignored, fun s ws henv hcmds => ignored s s 0#64 ws (State.turn_of_env_nil henv) hcmds (.inl zero_op)⟩

end Sys2Proof.Machine

/-! PROOF. The period resolver (`40_period_resolver.md`): the clock bands (R71), the walk over the prescaler table
(R74), and what SETPERIOD and INIT leave (R77, R78). -/

namespace Sys2Proof

/-! ### The opcodes of the two commands -/

theorem decode_of_op_one {w : CmdWord} (h : CmdWord.op w = 1#4) : decode w = .instr (.init (CmdWord.period w)) := by
  rw [decode, h]; rfl

theorem decode_of_op_two {w : CmdWord} (h : CmdWord.op w = 2#4) :
    decode w = .instr (.setperiod (CmdWord.period w)) := by
  rw [decode, h]; rfl

end Sys2Proof

namespace Sys2Proof.Machine

/-! ### The clock choice -/

theorem mPll_eq : Config.mPll = 48 := rfl
theorem mHalf_eq : Config.mHalf = 24 := rfl

theorem clockChoice_full (P : Params) {p : Nat} (h : p < 1000) : clockChoice P p = ⟨.pllFull, 48, true⟩ := by
  rw [clockChoice, if_pos h, mPll_eq]

theorem clockChoice_half (P : Params) {p : Nat} (h : 1000 ≤ p) (h' : p < 2000) :
    clockChoice P p = ⟨.pllHalf, 24, P.pllcfgInHalfBranch⟩ := by
  rw [clockChoice, if_neg (Nat.not_lt.mpr h), if_pos h', mHalf_eq]

theorem clockChoice_base (P : Params) {p : Nat} (h : 2000 ≤ p) : clockChoice P p = ⟨.base, P.mBase, false⟩ := by
  have h' : ¬ p < 1000 := by omega
  rw [clockChoice, if_neg h', if_neg (Nat.not_lt.mpr h)]

/-- Settles O34: one band after the other; `M_BASE` is the base clock divided by 2 MHz. -/
theorem clockChoiceBands : Obligations.ClockChoiceBands :=
  fun P _ => ⟨clockChoice_full P, clockChoice_half P, clockChoice_base P⟩

/-! ### The walk over the prescaler table -/

/-- R73: the row of index `i`, divide ratio `2^i` with code `i + 1`. -/
def tierRow (i : Nat) : Tier := ⟨2 ^ i, BitVec.ofNat 4 (i + 1)⟩

theorem prescalerTable_eq : prescalerTable = (List.range 15).map tierRow := by decide

/-- The rows from index `i` on begin with the row of index `i`. -/
theorem prescalerTable_drop {i : Nat} (h : i < 15) :
    prescalerTable.drop i = tierRow i :: prescalerTable.drop (i + 1) := by
  rw [prescalerTable_eq, List.drop_eq_getElem_cons (by simpa using h), List.getElem_map, List.getElem_range]

/-- R74: rows at the front that do not fit are passed over. -/
theorem resolveIn_drop {res n : Nat} {rows : List Tier} {k : Nat} (h : ∀ t ∈ rows.take k, ¬ res * t.ratio > n) :
    resolveIn res n rows = resolveIn res n (rows.drop k) := by
  induction rows generalizing k with
  | nil => rw [List.drop_nil]
  | cons t rows ih =>
    cases k with
    | zero => rfl
    | succ k =>
      rw [List.take_succ_cons, List.forall_mem_cons] at h
      rw [resolveIn, if_neg h.1, List.drop_succ_cons, ih h.2]

/-- R74: the walk goes on at row `k` if none of the rows before it fits. -/
theorem resolve_eq_resolveIn_drop {res n k : Nat} (hk : k ≤ 15) (h : ∀ j, j < k → ¬ res * 2 ^ j > n) :
    resolve res n = resolveIn res n (prescalerTable.drop k) := by
  refine resolveIn_drop fun t ht => ?_
  rw [prescalerTable_eq, ← List.map_take, List.take_range, Nat.min_eq_left hk, List.mem_map] at ht
  obtain ⟨j, hj, rfl⟩ := ht
  exact h j (List.mem_range.mp hj)

/-- R74: the first row that fits is taken. -/
theorem resolve_of_first_fit {res n i : Nat} (hi : i < 15) (hfit : res * 2 ^ i > n)
    (hfirst : ∀ j, j < i → ¬ res * 2 ^ j > n) : resolve res n = ⟨BitVec.ofNat 4 (i + 1), n / 2 ^ i, false⟩ := by
  have hrow : res * (tierRow i).ratio > n := hfit
  rw [resolve_eq_resolveIn_drop hi.le hfirst, prescalerTable_drop hi, resolveIn, if_pos hrow, tierRow]

/-- R74: with no row that fits, the largest code and the largest top. -/
theorem resolve_of_no_fit {res n : Nat} (h : ∀ i, i < 15 → ¬ res * 2 ^ i > n) :
    resolve res n = ⟨15#4, res - 1, true⟩ :=
  resolve_eq_resolveIn_drop le_rfl h

/-- Settles O36: the walk passes over the rows that do not fit, and ends at the row that does or at the table's end. -/
theorem resolveTakesTheFirstFittingTier : Obligations.ResolveTakesTheFirstFittingTier :=
  fun _ _ => ⟨fun _ => resolve_of_first_fit, resolve_of_no_fit⟩

/-- A row is only taken when its quotient is below `RES`, so every counter-top value is. -/
theorem resolveIn_top_lt {res : Nat} (hres : 0 < res) (n : Nat) (rows : List Tier) :
    (resolveIn res n rows).top < res := by
  induction rows with
  | nil => exact Nat.sub_lt hres Nat.one_pos
  | cons t rows ih =>
    rw [resolveIn]
    split
    case isTrue hfit => exact Nat.div_lt_of_lt_mul (by rwa [Nat.mul_comm])
    case isFalse => exact ih

theorem topOf_lt (P : Params) (p : Period) : topOf P p < P.res := resolveIn_top_lt (res_pos P) _ _

/-- `cfg_top` holds the whole counter-top value of every period. -/
theorem periodTop_toNat (P : Params) (p : Period) : (periodTop P p).toNat = topOf P p := by
  rw [periodTop, BitVec.toNat_ofNat]
  exact Nat.mod_eq_of_lt ((topOf_lt P p).trans_le (res_le P))

theorem periodTop_fits (P : Params) (p : Period) : fits P (periodTop P p) := by
  rw [fits, periodTop_toNat]; exact topOf_lt P p

/-! ### The effect of SETPERIOD's actions -/

/-- R31: with the mask 0xFF the whole byte is written. -/
theorem maskedByte_full (old data : Byte) : maskedByte old 0xFF#8 data = data := by
  have hmask : (0xFF#8 : Byte) = BitVec.allOnes 8 := rfl
  rw [maskedByte, hmask, BitVec.not_allOnes, BitVec.and_zero, BitVec.zero_or, BitVec.and_allOnes]

/-- R24: the write of a clock source keeps the reserved bits of `CLKSRC`. -/
theorem maskedByte_clockSource (old : Byte) (src : ClockSource) :
    maskedByte old 0x03#8 src.code = (old &&& 0xFC#8) ||| src.code := by
  cases src <;> rfl

theorem RegSet.write_clockSource (P : Params) (r : RegSet) (src : ClockSource) :
    r.write P .clksrc 0x03#8 src.code = { r with clksrc := (r.clksrc &&& 0xFC#8) ||| src.code } := by
  rw [← maskedByte_clockSource]; rfl

/-- R36: the pair for `TOP` latches a value that fits, and leaves its high byte in `TEMPH`. -/
theorem Action.regs_wide_top (P : Params) (r : RegSet) (v : Wide) (hv : fits P v) :
    Action.regs P (.wide .top v) r = { r with temph := wideHigh v, top := v } := by
  have htemph : r.write P .temph 0xFF#8 (wideHigh v) = { r with temph := wideHigh v } := by
    rw [RegSet.write, wideHigh_keeps P v hv]
  have htop : RegSet.write P { r with temph := wideHigh v } .topl 0xFF#8 (wideLow v)
      = { r with temph := wideHigh v, top := v } := by
    rw [RegSet.write, latched_high_low]
  rw [Action.regs, htemph]
  exact htop

theorem blockAfter_pllActions (P : Params) (c : ClockChoice) (b : Block) : blockAfter (pllActions P c) b = b := by
  rw [pllActions]; split <;> rfl

theorem regsAfter_pllActions (P : Params) (c : ClockChoice) (r : RegSet) :
    regsAfter P (pllActions P c) r = { r with pllcfg := if c.pllcfg then P.pllcfg96MHz else r.pllcfg } := by
  rw [pllActions]
  split
  · show { r with pllcfg := maskedByte r.pllcfg 0xFF#8 P.pllcfg96MHz } = _
    rw [maskedByte_full]
  · rfl

theorem eventsOf_pllActions (P : Params) (c : ClockChoice) :
    eventsOf (pllActions P c) = if c.pllcfg then [.w .pllcfg 0xFF#8 P.pllcfg96MHz] else [] := by
  rw [pllActions]; split <;> rfl

/-- R77: TimerConfig becomes the resolver's code and top, and valid. -/
theorem blockAfter_setPeriodActions (P : Params) (p : Period) (b : Block) :
    blockAfter (setPeriodActions P p) b = periodBlock P p b := by
  rw [setPeriodActions, blockAfter_append, blockAfter_append, blockAfter_pllActions]
  rfl

/-- R77: the clock source, the PLL configuration when due, and the latched top. -/
theorem regsAfter_setPeriodActions (P : Params) (p : Period) (r : RegSet) :
    regsAfter P (setPeriodActions P p) r = periodRegs P p r := by
  rw [setPeriodActions, regsAfter_append, regsAfter_append, regsAfter_pllActions]
  show Action.regs P (.wide .top (periodTop P p)) { r.write P .clksrc 0x03#8 _ with pllcfg := _ } = _
  rw [Action.regs_wide_top _ _ _ (periodTop_fits P p), wideHigh_eq_ofNat, periodTop_toNat, RegSet.write_clockSource]
  rfl

/-- R77: the events, in the order of the rule. -/
theorem eventsOf_setPeriodActions (P : Params) (p : Period) :
    eventsOf (setPeriodActions P p) = periodEvents P p := by
  have hpair : eventsOf [.setConfig (resolvePeriod P p.toNat).code (periodTop P p), .wide .top (periodTop P p)]
      = Action.events (.wide .top (periodTop P p)) := rfl
  rw [setPeriodActions, eventsOf_append, eventsOf_append, eventsOf_pllActions, hpair, Action.events_wide,
    periodTop_toNat]
  rfl

/-- Settles O42: SETPERIOD and INIT run the same actions, whose effect the lemmas above say part by part. -/
theorem setPeriodCompletes : Obligations.SetPeriodCompletes := by
  refine ⟨fun _ => decode_of_op_one, fun _ => decode_of_op_two, rfl, fun s p i hi hpresent hreset => ?_⟩
  have hacts : actionsOf s i = setPeriodActions s.params p := by rcases hi with rfl | rfl <;> rfl
  have h := exec_after i s hpresent hreset
  rwa [hacts, blockAfter_setPeriodActions, regsAfter_setPeriodActions, eventsOf_setPeriodActions] at h

end Sys2Proof.Machine

/-! PROOF. Run control (`41_run_control.md`): how the four command words decode, what their writes make of `CTRL` and of
the counter (R91, R92, R94), and what each command leaves. -/

namespace Sys2Proof

/-! ### The opcodes of the four commands -/

theorem decode_of_op_three {w : CmdWord} (h : CmdWord.op w = 3#4) : decode w = .instr .start := by
  rw [decode, h]; rfl

theorem decode_of_op_four {w : CmdWord} (h : CmdWord.op w = 4#4) : decode w = .instr .stop := by
  rw [decode, h]; rfl

theorem decode_of_op_five {w : CmdWord} (h : CmdWord.op w = 5#4) : decode w = .instr .restart := by
  rw [decode, h]; rfl

theorem decode_of_op_six {w : CmdWord} (h : CmdWord.op w = 6#4) : decode w = .instr .resume := by
  rw [decode, h]; rfl

end Sys2Proof

namespace Sys2Proof.Machine

/-! ### The writes of `CTRL` -/

/-- R91, R94: the mode `01` in bits 5:4 and the stored code in bits 3:0. -/
theorem restoreByte_eq (cs : CsCode) : restoreByte cs = 0x10#8 ||| cs.setWidth 8 := rfl

/-- R16: the restoring write's data lies within its mask, so none of it is cut off. -/
theorem restoreByte_and_mask (cs : CsCode) : restoreByte cs &&& 0x3F#8 = restoreByte cs := by
  revert cs; decide

/-- R31, R94: the restoring write keeps bits 7:6. -/
theorem maskedByte_restore (old : Byte) (cs : CsCode) :
    maskedByte old 0x3F#8 (restoreByte cs) = (old &&& 0xC0#8) ||| restoreByte cs := by
  rw [maskedByte, restoreByte_and_mask]; rfl

/-- R31, R92: the stopping write clears bits 3:0 and keeps bits 7:4. -/
theorem maskedByte_stop (old : Byte) : maskedByte old 0x0F#8 0x00#8 = old &&& 0xF0#8 := by
  rw [maskedByte, BitVec.zero_and, BitVec.or_zero]; rfl

/-- R91: the clearing write and then the restoring write leave the restoring write's data in `CTRL`, whatever it held. -/
theorem RegSet.write_clear_then_restore (P : Params) (r : RegSet) (cs : CsCode) :
    (r.write P .ctrl 0xFF#8 0x00#8).write P .ctrl 0x3F#8 (restoreByte cs) = { r with ctrl := restoreByte cs } := by
  have hctrl : maskedByte (maskedByte r.ctrl 0xFF#8 0x00#8) 0x3F#8 (restoreByte cs) = restoreByte cs := by
    rw [maskedByte_full, maskedByte_restore, BitVec.zero_and, BitVec.zero_or]
  exact congrArg (fun c : Byte => { r with ctrl := c }) hctrl

/-! ### The write of the counter -/

/-- R36: the pair for `CNT` latches a value that fits, and leaves its high byte in `TEMPH`. -/
theorem Action.regs_wide_cnt (P : Params) (r : RegSet) (v : Wide) (hv : fits P v) :
    Action.regs P (.wide .cnt v) r = { r with temph := wideHigh v, cnt := v } := by
  show { r with temph := wideHigh v &&& P.tempMask, cnt := latched (wideHigh v &&& P.tempMask) (wideLow v) } = _
  rw [wideHigh_keeps P v hv, latched_high_low]

/-! ### The effect of the commands' actions on the register set -/

/-- R91: the counter pair, then the clearing write, then the restoring write. -/
theorem regsAfter_startActions (P : Params) (cs : CsCode) (r : RegSet) :
    regsAfter P (startActions cs) r = { r with temph := 0x00#8, cnt := 0#16, ctrl := restoreByte cs } := by
  have hzero : Action.regs P (.wide .cnt 0#16) r = { r with temph := 0x00#8, cnt := 0#16 } :=
    Action.regs_wide_cnt P r 0#16 (res_pos P)
  show ((Action.regs P (.wide .cnt 0#16) r).write P .ctrl 0xFF#8 0x00#8).write P .ctrl 0x3F#8 (restoreByte cs) = _
  rw [hzero, RegSet.write_clear_then_restore]

theorem regsAfter_stopActions (P : Params) (r : RegSet) :
    regsAfter P stopActions r = { r with ctrl := r.ctrl &&& 0xF0#8 } := by
  rw [← maskedByte_stop]; rfl

theorem regsAfter_resumeActions (P : Params) (cs : CsCode) (r : RegSet) :
    regsAfter P (resumeActions cs) r = { r with ctrl := (r.ctrl &&& 0xC0#8) ||| restoreByte cs } := by
  rw [← maskedByte_restore]; rfl

/-! ### The commands -/

/-- Settles O43: START and RESTART run the same actions; their effect on the register set is
`regsAfter_startActions`, and they set `run` alone of the block state. -/
theorem startCompletes : Obligations.StartCompletes := by
  refine ⟨fun _ => decode_of_op_three, fun _ => decode_of_op_five, fun s i hi hpresent hreset => ?_⟩
  have hacts : actionsOf s i = startActions s.block.cfgCs := by rcases hi with rfl | rfl <;> rfl
  have h := exec_after i s hpresent hreset
  rw [hacts, regsAfter_startActions, restoreByte_eq] at h
  exact h

/-- Settles O44: the one write is `regsAfter_stopActions`. -/
theorem stopCompletes : Obligations.StopCompletes := by
  refine ⟨fun _ => decode_of_op_four, fun s hpresent hreset => ?_⟩
  have h := exec_after .stop s hpresent hreset
  rw [actionsOf, regsAfter_stopActions] at h
  exact h

/-- Settles O45: the one write is `regsAfter_resumeActions`. -/
theorem resumeCompletes : Obligations.ResumeCompletes := by
  refine ⟨fun _ => decode_of_op_six, fun s hpresent hreset => ?_⟩
  have h := exec_after .resume s hpresent hreset
  rw [actionsOf, regsAfter_resumeActions, restoreByte_eq] at h
  exact h

end Sys2Proof.Machine

/-! PROOF. PWM channel control (`42_pwm_channel.md`): how the four command words decode, which comparator a channel has
(R100), what a scaled duty is (R101), and what each command leaves (R102 to R106). -/

namespace Sys2Proof

/-! ### The opcodes of the four commands -/

theorem decode_of_op_seven {w : CmdWord} (h : CmdWord.op w = 7#4) :
    decode w = .instr (.setpwmduty (CmdWord.ch w) (CmdWord.duty w)) := by
  rw [decode, h]; rfl

theorem decode_of_op_eight {w : CmdWord} (h : CmdWord.op w = 8#4) :
    decode w = .instr (.enpwm (CmdWord.ch w) (CmdWord.duty w)) := by
  rw [decode, h]; rfl

theorem decode_of_op_nine {w : CmdWord} (h : CmdWord.op w = 9#4) :
    decode w = .instr (.enpwmp (CmdWord.ch w) (CmdWord.duty w) (CmdWord.period w)) := by
  rw [decode, h]; rfl

theorem decode_of_op_ten {w : CmdWord} (h : CmdWord.op w = 10#4) :
    decode w = .instr (.dispwm (CmdWord.ch w)) := by
  rw [decode, h]; rfl

end Sys2Proof

namespace Sys2Proof.Machine

/-! ### The comparator of a channel -/

/-- R100: `k = ch >> 1` names the comparator; as there is none of index 3, the channel is one of 0 to 5. -/
theorem channelComparator_of_index {ch : Chan} {k : Comparator} (h : k.index = ch.toNat / 2) :
    channelComparator ch = some k := by
  revert ch
  cases k <;> decide

theorem channelComparator_of_supported {ch : Chan} (h : ch.toNat ≤ 5) : ∃ k, channelComparator ch = some k := by
  rw [← Option.isSome_iff_exists]
  revert ch
  decide

/-- R106: channels 6 and 7 have no comparator. -/
theorem channelComparator_of_unsupported {ch : Chan} (h : 5 < ch.toNat) : channelComparator ch = none := by
  revert ch
  decide

/-! ### The scaled duty -/

/-- R101: scaling never exceeds the counter-top value. -/
theorem scaledDuty_le_top (top : Nat) (d : Duty) : top * d.toNat / 1024 ≤ top :=
  Nat.div_le_of_le_mul (by rw [Nat.mul_comm]; exact Nat.mul_le_mul_right top d.isLt.le)

/-- R102: the compare register holds the whole scaled duty. -/
theorem dutyValue_toNat (top : Wide) (d : Duty) : (dutyValue top d).toNat = top.toNat * d.toNat / 1024 := by
  rw [dutyValue, physDuty, Nat.shiftRight_eq_div_pow, BitVec.toNat_ofNat]
  exact Nat.mod_eq_of_lt ((scaledDuty_le_top top.toNat d).trans_lt top.isLt)

theorem dutyValue_eq_ofNat (top : Wide) (d : Duty) :
    dutyValue top d = BitVec.ofNat 16 (top.toNat * d.toNat / 1024) := by
  rw [← dutyValue_toNat, BitVec.ofNat_toNat, BitVec.setWidth_eq]

theorem dutyValue_fits {P : Params} {top : Wide} (h : fits P top) (d : Duty) : fits P (dutyValue top d) := by
  rw [fits, dutyValue_toNat]
  exact (scaledDuty_le_top top.toNat d).trans_lt h

/-! ### The writes of the register set -/

/-- R31, R103: a mask written as its own data sets its bits and keeps the others. -/
theorem maskedByte_set (old mask : Byte) : maskedByte old mask mask = old ||| mask := by
  ext i hi
  cases hold : old[i] <;> simp [maskedByte, hold]

/-- R31, R105: zero data clears the mask's bits and keeps the others. -/
theorem maskedByte_clear (old mask : Byte) : maskedByte old mask 0x00#8 = old &&& ~~~mask := by
  rw [maskedByte, BitVec.zero_and, BitVec.or_zero]

/-- R36: the pair for a compare register latches a value that fits, and leaves its high byte in `TEMPH`. -/
theorem Action.regs_wide_cmp (P : Params) (r : RegSet) (k : Comparator) (v : Wide) (hv : fits P v) :
    Action.regs P (.wide (.cmp k) v) r = RegSet.withCmp { r with temph := wideHigh v } k v := by
  have hlatch : Action.regs P (.wide (.cmp k) v) r
      = RegSet.withCmp { r with temph := wideHigh v &&& P.tempMask } k
          (latched (wideHigh v &&& P.tempMask) (wideLow v)) := by
    cases k <;> rfl
  rw [hlatch, wideHigh_keeps P v hv, latched_high_low]

/-! ### The effect of the channel's actions -/

/-- R102, R103: no PWM action touches the block state, on any channel. -/
theorem blockAfter_enablePwmActions (top : Wide) (ch : Chan) (d : Duty) (b : Block) :
    blockAfter (enablePwmActions top ch d) b = b := by
  unfold enablePwmActions dutyActions
  split <;> rfl

section Supported

variable {top : Wide} {ch : Chan} {d : Duty} {k : Comparator} (hk : k.index = ch.toNat / 2)

include hk

theorem dutyActions_of_index : dutyActions top ch d = [.wide (.cmp k) (dutyValue top d)] := by
  rw [dutyActions, channelComparator_of_index hk]

theorem enablePwmActions_of_index :
    enablePwmActions top ch d
      = [.w .pwmen (pwmBit k) (pwmBit k), .w .outen (outputBit ch) (outputBit ch), .pin ch]
        ++ dutyActions top ch d := by
  rw [enablePwmActions, channelComparator_of_index hk]

/-- R102: the scaled duty is latched into the channel's compare register. -/
theorem regsAfter_dutyActions (P : Params) (r : RegSet) (htop : fits P top) :
    regsAfter P (dutyActions top ch d) r = dutyRegs k (top.toNat * d.toNat / 1024) r := by
  rw [dutyActions_of_index hk]
  show Action.regs P (.wide (.cmp k) (dutyValue top d)) r = _
  rw [Action.regs_wide_cmp P r k _ (dutyValue_fits htop d), wideHigh_eq_ofNat, dutyValue_toNat, dutyValue_eq_ofNat]
  rfl

theorem eventsOf_dutyActions :
    eventsOf (dutyActions top ch d) = dutyEvents k (top.toNat * d.toNat / 1024) := by
  rw [dutyActions_of_index hk]
  show Action.events (.wide (.cmp k) (dutyValue top d)) = _
  rw [Action.events_wide, dutyValue_toNat]
  rfl

/-- R103: the mode bit and the output-enable bit are set, then the scaled duty is latched. -/
theorem regsAfter_enablePwmActions (P : Params) (r : RegSet) (htop : fits P top) :
    regsAfter P (enablePwmActions top ch d) r = enableRegs ch k (top.toNat * d.toNat / 1024) r := by
  rw [enablePwmActions_of_index hk, regsAfter_append, regsAfter_dutyActions hk P _ htop]
  show dutyRegs k _ { r with
    pwmen := maskedByte r.pwmen (pwmBit k) (pwmBit k), outen := maskedByte r.outen (outputBit ch) (outputBit ch) } = _
  rw [maskedByte_set, maskedByte_set]
  rfl

/-- R103: the events, in the order of the rule. -/
theorem eventsOf_enablePwmActions :
    eventsOf (enablePwmActions top ch d) = enableEvents ch k (top.toNat * d.toNat / 1024) := by
  rw [enablePwmActions_of_index hk, eventsOf_append, eventsOf_dutyActions hk]
  rfl

end Supported

theorem disablePwmActions_of_supported {ch : Chan} (h : ch.toNat ≤ 5) :
    disablePwmActions ch = [.w .outen (outputBit ch) 0x00#8] := by
  obtain ⟨k, hk⟩ := channelComparator_of_supported h
  rw [disablePwmActions, hk]

/-! ### Unsupported channels -/

theorem exec_of_no_actions {i : Instr} {s : State} (h : actionsOf s i = []) : exec i s = .next s := by
  rw [exec_eq, h, runCommand, perform, ite_self]

section Unsupported

variable {ch : Chan} (h : 5 < ch.toNat)

include h

theorem dutyActions_of_unsupported (top : Wide) (d : Duty) : dutyActions top ch d = [] := by
  rw [dutyActions, channelComparator_of_unsupported h]

theorem enablePwmActions_of_unsupported (top : Wide) (d : Duty) : enablePwmActions top ch d = [] := by
  rw [enablePwmActions, channelComparator_of_unsupported h]

theorem disablePwmActions_of_unsupported : disablePwmActions ch = [] := by
  rw [disablePwmActions, channelComparator_of_unsupported h]

theorem exec_setpwmduty_of_unsupported (s : State) (d : Duty) : exec (.setpwmduty ch d) s = .next s :=
  exec_of_no_actions (dutyActions_of_unsupported h _ d)

theorem exec_enpwm_of_unsupported (s : State) (d : Duty) : exec (.enpwm ch d) s = .next s :=
  exec_of_no_actions (enablePwmActions_of_unsupported h _ d)

theorem exec_dispwm_of_unsupported (s : State) : exec (.dispwm ch) s = .next s :=
  exec_of_no_actions (disablePwmActions_of_unsupported h)

/-- R104: on an unsupported channel the period part still runs. -/
theorem exec_enpwmp_of_unsupported (s : State) (d : Duty) (p : Period) :
    exec (.enpwmp ch d p) s = exec (.setperiod p) s := by
  have hacts : actionsOf s (.enpwmp ch d p) = actionsOf s (.setperiod p) := by
    simp only [actionsOf, enablePwmActions_of_unsupported h, List.append_nil]
  rw [exec_eq, hacts, ← exec_eq]

end Unsupported

/-! ### The commands -/

/-- Settles O46: the one action is the pair of `regsAfter_dutyActions`. -/
theorem setPwmDutyCompletes : Obligations.SetPwmDutyCompletes := by
  refine ⟨fun _ => decode_of_op_seven, fun s _ d h => exec_setpwmduty_of_unsupported h s d,
    fun s ch d k hpresent hreset hk htop => ?_⟩
  have h := exec_after (.setpwmduty ch d) s hpresent hreset
  rw [actionsOf, regsAfter_dutyActions hk s.params s.regs htop, eventsOf_dutyActions hk, dutyActions_of_index hk] at h
  exact h

/-- Settles O47: what the actions leave is said part by part in the lemmas about `enablePwmActions`. -/
theorem enablePwmCompletes : Obligations.EnablePwmCompletes := by
  refine ⟨fun _ => decode_of_op_eight, fun s _ d h => exec_enpwm_of_unsupported h s d,
    fun s ch d k hpresent hreset hk htop => ?_⟩
  have h := exec_after (.enpwm ch d) s hpresent hreset
  rwa [actionsOf, blockAfter_enablePwmActions, regsAfter_enablePwmActions hk s.params s.regs htop,
    eventsOf_enablePwmActions hk] at h

/-- Settles O48: SETPERIOD's actions, then ENPWM's against the new top, which fits whatever the old one was. -/
theorem enablePwmPeriodCompletes : Obligations.EnablePwmPeriodCompletes := by
  refine ⟨fun _ => decode_of_op_nine, fun s _ d p h => exec_enpwmp_of_unsupported h s d p,
    fun s ch d p k hpresent hreset hk => ?_⟩
  have h := exec_after (.enpwmp ch d p) s hpresent hreset
  rwa [actionsOf, blockAfter_append, regsAfter_append, eventsOf_append, blockAfter_setPeriodActions,
    regsAfter_setPeriodActions, eventsOf_setPeriodActions, blockAfter_enablePwmActions,
    regsAfter_enablePwmActions hk s.params _ (periodTop_fits s.params p), eventsOf_enablePwmActions hk,
    periodTop_toNat] at h

/-- Settles O49: the one action is a write of zero under the channel's output-enable bit. -/
theorem disablePwmCompletes : Obligations.DisablePwmCompletes := by
  refine ⟨fun _ => decode_of_op_ten, fun s _ h => exec_dispwm_of_unsupported h s,
    fun s ch hpresent hreset hch => ?_⟩
  have h := exec_after (.dispwm ch) s hpresent hreset
  have hregs : regsAfter s.params [.w .outen (outputBit ch) 0x00#8] s.regs
      = { s.regs with outen := s.regs.outen &&& ~~~(outputBit ch) } := by
    rw [← maskedByte_clear]; rfl
  rw [actionsOf, disablePwmActions_of_supported hch, hregs] at h
  exact h

/-- Settles O50: a channel with no comparator gives no action, and of ENPWMP only SETPERIOD's. -/
theorem unsupportedChannelsAreIgnored : Obligations.UnsupportedChannelsAreIgnored :=
  fun s _ d p h => ⟨exec_setpwmduty_of_unsupported h s d, exec_enpwm_of_unsupported h s d,
    exec_dispwm_of_unsupported h s, exec_enpwmp_of_unsupported h s d p⟩

end Sys2Proof.Machine

/-! PROOF. The interrupt hook (`43_interrupt_hook.md`): how the command word of DETACH decodes, and what its write makes
of the mask register (R113). -/

namespace Sys2Proof

theorem decode_of_op_thirteen {w : CmdWord} (h : CmdWord.op w = 13#4) : decode w = .instr .detach := by
  rw [decode, h]; rfl

end Sys2Proof

namespace Sys2Proof.Machine

/-- R31: a write of `IMASK` under the full mask leaves the data there, whatever it held. -/
theorem RegSet.write_imask_full (P : Params) (r : RegSet) (data : Byte) :
    r.write P .imask 0xFF#8 data = { r with imask := data } :=
  congrArg (fun c : Byte => { r with imask := c }) (maskedByte_full r.imask data)

/-- R113: the whole mask register is cleared, its reserved bits among them, and no other register changes. -/
theorem regsAfter_detachActions (P : Params) (r : RegSet) :
    regsAfter P detachActions r = { r with imask := 0x00#8 } :=
  RegSet.write_imask_full P r 0x00#8

/-- Settles O53: the one action is the write of `regsAfter_detachActions`; no action touches the block state, so the
handle stays. -/
theorem detachCompletes : Obligations.DetachCompletes := by
  refine ⟨fun _ => decode_of_op_thirteen, fun s hpresent hreset => ?_⟩
  have h := exec_after .detach s hpresent hreset
  rw [actionsOf, regsAfter_detachActions] at h
  exact h

end Sys2Proof.Machine

/-! PROOF. The command word and the command agent (`30_encoding.md` R50 to R60, `10_state.md` R12): encoding and decoding
are inverse up to the bits a format ignores, every word has one meaning, and a step runs it. -/

namespace Sys2Proof

/-! ### Decoding what was encoded -/

theorem decode_of_op_eleven {w : CmdWord} (h : CmdWord.op w = 11#4) : decode w = .instr (.attach (CmdWord.handle w)) := by
  rw [decode, h]; rfl

theorem decode_of_op_twelve {w : CmdWord} (h : CmdWord.op w = 12#4) :
    decode w = .instr (.attachp (CmdWord.handle w) (CmdWord.period w)) := by
  rw [decode, h]; rfl

/-- Settles O1: the opcode field chooses the command, and each operand is read back from the field it was packed in. -/
theorem encodeThenDecode : Obligations.EncodeThenDecode := by
  intro i
  cases i with
  | init p => rw [encode, decode_of_op_one (packWord_op ..), packWord_period]
  | setperiod p => rw [encode, decode_of_op_two (packWord_op ..), packWord_period]
  | start => exact decode_of_op_three (packWord_op ..)
  | stop => exact decode_of_op_four (packWord_op ..)
  | restart => exact decode_of_op_five (packWord_op ..)
  | resume => exact decode_of_op_six (packWord_op ..)
  | setpwmduty ch d => rw [encode, decode_of_op_seven (packWord_op ..), packWord_ch, packWord_duty]
  | enpwm ch d => rw [encode, decode_of_op_eight (packWord_op ..), packWord_ch, packWord_duty]
  | enpwmp ch d p => rw [encode, decode_of_op_nine (packWord_op ..), packWord_ch, packWord_duty, packWord_period]
  | dispwm ch => rw [encode, decode_of_op_ten (packWord_op ..), packWord_ch]
  | attach h => rw [encode, decode_of_op_eleven (packWord_op ..), packWord_handle]
  | attachp h p => rw [encode, decode_of_op_twelve (packWord_op ..), packWord_handle, packWord_period]
  | detach => exact decode_of_op_thirteen (packWord_op ..)

/-! ### Encoding what was decoded -/

/-- R50: a word is its fields, most significant first; bits 56:48 are the reserved ones. -/
theorem CmdWord.eq_append (w : CmdWord) :
    w = CmdWord.op w ++ CmdWord.ch w ++ w.extractLsb' 48 9 ++ CmdWord.handle w ++ CmdWord.period w := by
  have join {start₂ start₁ len₁ : Nat} (len₂ : Nat) (h : start₂ = start₁ + len₁) :
      w.extractLsb' start₂ len₂ ++ w.extractLsb' start₁ len₁ = w.extractLsb' start₁ (len₂ + len₁) :=
    BitVec.extractLsb'_append_extractLsb'_eq_extractLsb' h
  rw [CmdWord.op, CmdWord.ch, CmdWord.handle, CmdWord.period, join 4 (by rfl), join (4 + 3) (by rfl),
    join (4 + 3 + 9) (by rfl), join (4 + 3 + 9 + 16) (by rfl)]
  exact BitVec.extractLsb'_eq_self.symm

/-- R51: a mask packed like a word, with the whole opcode and no reserved bit, masks the fields one by one. -/
theorem and_packWord (w : CmdWord) (ch : Chan) (arg : BitVec 16) (p : Period) :
    w &&& packWord 15#4 ch arg p
      = packWord (CmdWord.op w) (CmdWord.ch w &&& ch) (CmdWord.handle w &&& arg) (CmdWord.period w &&& p) := by
  have hop : CmdWord.op w &&& 15#4 = CmdWord.op w := BitVec.and_allOnes
  conv_lhs => rw [CmdWord.eq_append w]
  rw [packWord, BitVec.and_append, BitVec.and_append, BitVec.and_append, BitVec.and_append, hop, BitVec.and_zero,
    packWord]

/-- R50: of `arg16` a duty takes the low ten bits. -/
theorem handle_and_dutyMask (w : CmdWord) : CmdWord.handle w &&& 0x03FF#16 = dutyArg (CmdWord.duty w) := by
  have hsplit : CmdWord.handle w = w.extractLsb' 42 6 ++ CmdWord.duty w :=
    (BitVec.extractLsb'_append_extractLsb'_eq_extractLsb' (start₂ := 42) (start₁ := 32) (len₁ := 10) rfl).symm
  have hmask : 0x03FF#16 = 0#6 ++ BitVec.allOnes 10 := rfl
  rw [hsplit, hmask, BitVec.and_append, BitVec.and_zero, BitVec.and_allOnes, dutyArg]

/-- R51: the bits an opcode uses, packed like a word. -/
theorem usedBits_eq_packWord (op : BitVec 4) :
    ∃ ch arg p, usedBits op = packWord 15#4 ch arg p := by
  refine ⟨CmdWord.ch (usedBits op), CmdWord.handle (usedBits op), CmdWord.period (usedBits op), ?_⟩
  revert op; decide

/-- R50: masking a word by the bits its opcode uses keeps the opcode. -/
theorem op_and_usedBits (w : CmdWord) (op : BitVec 4) : CmdWord.op (w &&& usedBits op) = CmdWord.op w := by
  obtain ⟨ch, arg, p, h⟩ := usedBits_eq_packWord op
  rw [h, and_packWord, packWord_op]

/-- Settles O2: each opcode's mask is itself packed, its fields all ones where the format has an operand and zero where
it has none, so `and_packWord` masks the word to what `encode` packs. -/
theorem decodeThenEncodeClearsIgnoredBits : Obligations.DecodeThenEncodeClearsIgnoredBits := by
  intro w i h
  have period (p : Period) : p &&& 0xFFFFFFFF#32 = p := BitVec.and_allOnes
  have chan (ch : Chan) : ch &&& 7#3 = ch := BitVec.and_allOnes
  have handle (c : Handle) : c &&& 0xFFFF#16 = c := BitVec.and_allOnes
  have used : ∀ ch arg p, usedBits (CmdWord.op w) = packWord 15#4 ch arg p → w &&& usedBits (CmdWord.op w)
      = packWord (CmdWord.op w) (CmdWord.ch w &&& ch) (CmdWord.handle w &&& arg) (CmdWord.period w &&& p) :=
    fun ch arg p hu => by rw [hu, and_packWord]
  rw [decode] at h
  split at h <;> cases h <;> rename_i hop <;> rw [hop] at used
  case h_1 | h_2 => rw [hop, used 0#3 0#16 0xFFFFFFFF#32 rfl, BitVec.and_zero, BitVec.and_zero, period, encode]
  case h_3 | h_4 | h_5 | h_6 | h_13 =>
    rw [hop, used 0#3 0#16 0#32 rfl, BitVec.and_zero, BitVec.and_zero, BitVec.and_zero, encode]
  case h_7 | h_8 =>
    rw [hop, used 7#3 0x03FF#16 0#32 rfl, BitVec.and_zero, chan, handle_and_dutyMask, encode]
  case h_9 => rw [hop, used 7#3 0x03FF#16 0xFFFFFFFF#32 rfl, period, chan, handle_and_dutyMask, encode]
  case h_10 => rw [hop, used 7#3 0#16 0#32 rfl, BitVec.and_zero, BitVec.and_zero, chan, encode]
  case h_11 => rw [hop, used 0#3 0xFFFF#16 0#32 rfl, BitVec.and_zero, BitVec.and_zero, handle, encode]
  case h_12 => rw [hop, used 0#3 0xFFFF#16 0xFFFFFFFF#32 rfl, BitVec.and_zero, handle, period, encode]

/-! ### Every word has one meaning -/

/-- R53: a decoded command has the opcode of its word. -/
theorem opcode_of_decode {w : CmdWord} {i : Instr} (h : decode w = .instr i) : i.opcode = CmdWord.op w := by
  rw [decode] at h
  split at h <;> cases h <;> exact Eq.symm ‹_›

theorem opcode_ne_reserved (i : Instr) : i.opcode ≠ 0#4 ∧ i.opcode ≠ 14#4 ∧ i.opcode ≠ 15#4 := by
  cases i <;> simp [Instr.opcode]

/-- R54, R60: a word that decodes to no command carries one of the three reserved opcodes. -/
theorem op_of_decode_reserved {w : CmdWord} {op : BitVec 4} (h : decode w = .reservedOpcode op) :
    CmdWord.op w = 0#4 ∨ CmdWord.op w = 14#4 ∨ CmdWord.op w = 15#4 := by
  rw [decode] at h
  split at h
  case h_14 =>
    clear h
    generalize CmdWord.op w = op at *
    revert op
    decide
  all_goals cases h

/-- R60: what a word means, with the opcode it carries. -/
theorem decode_eq_instr_or_reserved (w : CmdWord) :
    (∃ i, decode w = .instr i ∧ i.opcode = CmdWord.op w) ∨
      (decode w = .reservedOpcode (CmdWord.op w) ∧
        (CmdWord.op w = 0#4 ∨ CmdWord.op w = 14#4 ∨ CmdWord.op w = 15#4)) := by
  cases h : decode w with
  | instr i => exact .inl ⟨i, rfl, opcode_of_decode h⟩
  | reservedOpcode op =>
    have hop := op_of_decode_reserved h
    exact .inr ⟨h ▸ decode_of_reserved_op hop, hop⟩

/-- R55 (a): the encoder tells commands apart. -/
theorem encode_injective : Function.Injective encode := by
  intro i j h
  have hdecode := encodeThenDecode i
  rw [h, encodeThenDecode j] at hdecode
  cases hdecode
  rfl

/-- Settles O3: the used bits hold the opcode, so the two words have one opcode; two commands with one word are the
same. -/
theorem unusedBitsAreIgnored : Obligations.UnusedBitsAreIgnored := by
  intro w v h
  have hop : CmdWord.op v = CmdWord.op w := by rw [← op_and_usedBits v, ← h, op_and_usedBits]
  obtain ⟨i, hi, hiop⟩ | ⟨hw, hres⟩ := decode_eq_instr_or_reserved w
  · obtain ⟨j, hj, -⟩ | ⟨-, hres⟩ := decode_eq_instr_or_reserved v
    · have hji : encode j = encode i := by
        rw [decodeThenEncodeClearsIgnoredBits v j hj, decodeThenEncodeClearsIgnoredBits w i hi, h, hop]
      rw [hi, hj, encode_injective hji]
    · obtain ⟨h0, h14, h15⟩ := opcode_ne_reserved i
      rw [hop, ← hiop] at hres
      exact absurd hres (by simp [h0, h14, h15])
  · rw [hw, decode_of_reserved_op (hop ▸ hres), hop]

/-- Settles O4: the words are literals. -/
theorem specWordsDecode : Obligations.SpecWordsDecode :=
  ⟨rfl, rfl, rfl, rfl, rfl, rfl, rfl, rfl⟩

end Sys2Proof

namespace Sys2Proof.Machine

/-! ### One step -/

theorem State.turn_of_env_proceed {s : State} {e : List EnvInput} (h : s.env = .proceed :: e) :
    s.turn = .command { s with env := e } := by
  rw [State.turn, h]

theorem State.turn_of_env_overflow {s : State} {e : List EnvInput} (h : s.env = .overflow :: e) :
    s.turn = .environment { s with env := e }.deliverOverflow := by
  rw [State.turn, h]

theorem State.turn_of_env_tick {s : State} {v : Wide} {e : List EnvInput} (h : s.env = .tick v :: e) :
    s.turn = .environment ({ s with env := e }.tick v) := by
  rw [State.turn, h]

theorem State.turn_of_env_reset {s : State} {e : List EnvInput} (h : s.env = .reset :: e) :
    s.turn = .environment { s with env := e }.hardReset := by
  rw [State.turn, h]

theorem step_of_turn_environment {s t : State} (h : s.turn = .environment t) : step s = .next t := by
  simp only [step, h]

theorem step_of_nothing_offered {s t : State} (hturn : s.turn = .command t) (hcmds : t.cmds = []) :
    step s = .next t := by
  simp only [step, hturn, State.accept, hcmds]

/-- R12: on its turn the command agent takes a command's word off the port and runs the command. -/
theorem step_of_decode_instr {s t : State} {w : CmdWord} {ws : List CmdWord} {i : Instr} (hturn : s.turn = .command t)
    (hcmds : t.cmds = w :: ws) (hdecode : decode w = .instr i) : step s = exec i { t with cmds := ws } := by
  simp only [step, hturn, State.accept_of_cmds_cons hcmds, hdecode]

/-- R120: every command answers a next state. -/
theorem exec_completes (i : Instr) (s : State) : ∃ t, exec i s = .next t := by
  rw [exec_eq]; exact ⟨_, rfl⟩

theorem step_completes (s : State) : ∃ t, step s = .next t := by
  cases hturn : s.turn with
  | environment t => exact ⟨t, step_of_turn_environment hturn⟩
  | command t =>
    cases hcmds : t.cmds with
    | nil => exact ⟨t, step_of_nothing_offered hturn hcmds⟩
    | cons w ws =>
      cases hdecode : decode w with
      | instr i => rw [step_of_decode_instr hturn hcmds hdecode]; exact exec_completes i _
      | reservedOpcode op =>
        exact ⟨_, step_of_decode_reserved hturn (State.accept_of_cmds_cons hcmds) hdecode⟩

/-- Settles O5: the decoder's two answers (`decode_eq_instr_or_reserved`), and one next state per kind of turn. -/
theorem everyWordHasOneMeaning : Obligations.EveryWordHasOneMeaning := by
  refine ⟨fun w => ?_, step_completes⟩
  obtain ⟨i, hi, hop⟩ | h := decode_eq_instr_or_reserved w
  · exact .inl ⟨⟨i, hi, hop⟩, hop ▸ opcode_ne_reserved i⟩
  · exact .inr h

/-- Settles O6: a silent environment and a `proceed` both leave the turn to the command agent. -/
theorem stepRunsTheDecodedCommand : Obligations.StepRunsTheDecodedCommand :=
  fun _ _ _ _ hcmds hdecode => ⟨fun henv => step_of_decode_instr (State.turn_of_env_nil henv) hcmds hdecode,
    fun _ henv => step_of_decode_instr (State.turn_of_env_proceed henv) hcmds hdecode⟩

theorem tableWord_encode (i : Instr) : tableWord 64 (encode i).toNat = encode i := by
  rw [tableWord, Nat.mod_eq_of_lt (encode i).isLt, BitVec.ofNat_toNat, BitVec.setWidth_eq]

/-- Settles O7: `withFetchWord` puts a `proceed` and the word in front, and the step takes both off again. -/
theorem offeredCommandRunsNext : Obligations.OfferedCommandRunsNext :=
  fun s i => step_of_decode_instr (t := { s with cmds := _ :: s.cmds }) (State.turn_of_env_proceed rfl) rfl
    (by rw [tableWord_encode, encodeThenDecode])

/-- Settles O9: the turn is the command agent's, and it has no word. -/
theorem nothingOfferedNothingHappens : Obligations.NothingOfferedNothingHappens :=
  fun _ henv hcmds => step_of_nothing_offered (State.turn_of_env_nil henv) hcmds

/-! ### The environment between two commands -/

theorem State.callback_of_inert {s : State} (h : s.params.variantPresent = false) : s.callback = none := by
  simp [State.callback, h]

theorem State.callback_of_masked {s : State} (h : s.regs.ovfEnabled = false) : s.callback = none := by
  simp [State.callback, h]

theorem State.callback_of_enabled {s : State} (hp : s.params.variantPresent = true) (h : s.regs.ovfEnabled = true) :
    s.callback = s.block.handle := by
  simp [State.callback, hp, h]

/-- R116: a callback carries the stored handle. -/
theorem State.handle_of_callback {s : State} {h : Handle} (hc : s.callback = some h) : s.block.handle = some h := by
  rw [State.callback] at hc
  split at hc
  · exact hc
  · cases hc

theorem State.deliverOverflow_of_callback_none {s : State} (h : s.callback = none) : s.deliverOverflow = s := by
  rw [State.deliverOverflow, h]

theorem State.deliverOverflow_of_callback_some {s : State} {h : Handle} (hc : s.callback = some h) :
    s.deliverOverflow = s.emit (.cb h) := by
  rw [State.deliverOverflow, hc]

/-- Settles O10: an inert unit runs no action and presents no handle. -/
theorem inertUnitIgnoresEverything : Obligations.InertUnitIgnoresEverything := by
  intro s hinert
  refine ⟨fun i => exec_inert i s hinert, fun w ws henv hcmds => ?_, fun e henv => ?_⟩
  · have hturn := State.turn_of_env_nil henv
    cases hdecode : decode w with
    | instr i => exact (step_of_decode_instr hturn hcmds hdecode).trans (exec_inert i { s with cmds := ws } hinert)
    | reservedOpcode op => exact step_of_decode_reserved hturn (State.accept_of_cmds_cons hcmds) hdecode
  · rw [step_of_turn_environment (State.turn_of_env_overflow henv)]
    exact congrArg Host.Outcome.next (State.deliverOverflow_of_callback_none (State.callback_of_inert hinert))

/-- Settles O11: what the overflow presents is the stored handle while the mask is set, and nothing while it is clear. -/
theorem overflowDeliversTheHandle : Obligations.OverflowDeliversTheHandle := by
  intro s e hpresent henv
  rw [step_of_turn_environment (State.turn_of_env_overflow henv)]
  refine ⟨fun h hmask hhandle => ?_, fun hmask => ?_⟩
  · have hcallback : { s with env := e }.callback = some h := (State.callback_of_enabled hpresent hmask).trans hhandle
    rw [State.deliverOverflow_of_callback_some hcallback, State.emit]
  · exact congrArg Host.Outcome.next (State.deliverOverflow_of_callback_none (State.callback_of_masked hmask))

/-- R18 to R20: a value of `COUNTER_BITS` bits loses nothing in a wide register. -/
theorem and_wideMask_of_fits {P : Params} {v : Wide} (h : fits P v) : v &&& P.wideMask = v :=
  BitVec.eq_of_toNat_eq (by rw [toNat_and_wideMask, Nat.mod_eq_of_lt h])

theorem and_wideMask_fits (P : Params) (v : Wide) : fits P (v &&& P.wideMask) := by
  rw [fits, toNat_and_wideMask]; exact Nat.mod_lt _ (res_pos P)

theorem and_tempMask_lt (P : Params) (d : Byte) : (d &&& P.tempMask).toNat < 2 ^ P.hiBits := by
  rw [toNat_and_tempMask]; exact Nat.mod_lt _ (by positivity)

/-- Settles O12: the two branches of `State.tick`. -/
theorem counterMovesOnlyWhileClocked : Obligations.CounterMovesOnlyWhileClocked := by
  intro s v e henv
  rw [step_of_turn_environment (State.turn_of_env_tick henv)]
  refine ⟨fun hcs => ?_, fun hcs hv => ?_⟩
  · exact congrArg Host.Outcome.next (if_pos hcs)
  · have hv' : v &&& s.params.wideMask = v := and_wideMask_of_fits hv
    refine (congrArg Host.Outcome.next (if_neg hcs)).trans ?_
    rw [hv']

/-! ### Reset -/

/-- R27: the reset draw leaves the clock-select field 0. -/
theorem RegSet.atReset_cs (P : Params) (d : Draw) : (RegSet.atReset P d).cs = 0#4 := by
  show (d.ctrl &&& 0xF0#8).extractLsb' 0 4 = 0#4
  rw [BitVec.extractLsb'_and]
  exact BitVec.and_zero

/-- R27: the reset draw leaves the overflow mask clear. -/
theorem RegSet.atReset_ovfEnabled (P : Params) (d : Draw) : (RegSet.atReset P d).ovfEnabled = false := by
  show (d.imask &&& 0xFE#8).getLsbD 0 = false
  rw [BitVec.getLsbD_and]
  exact Bool.and_false _

theorem RegSet.atReset_inRange (P : Params) (d : Draw) : (RegSet.atReset P d).InRange P :=
  ⟨and_tempMask_lt P _, and_wideMask_fits P _, and_wideMask_fits P _, and_wideMask_fits P _, and_wideMask_fits P _,
    and_wideMask_fits P _⟩

/-- Settles O13: the reset input answers `State.hardReset`, whose draw is cut to what R27 fixes. -/
theorem resetInputGivesTheResetState : Obligations.ResetInputGivesTheResetState :=
  fun _ _ henv => ⟨_, step_of_turn_environment (State.turn_of_env_reset henv), rfl, rfl, rfl,
    RegSet.atReset_cs _ _, RegSet.atReset_ovfEnabled _ _, rfl, rfl, rfl, rfl⟩

/-- Settles O14: the reset state of any draw, with the parameters of `Params.default`. -/
theorem resetStateAsSpecified : Obligations.ResetStateAsSpecified :=
  ⟨rfl, rfl, rfl, RegSet.atReset_cs _ _, RegSet.atReset_ovfEnabled _ _, rfl, rfl, rfl, rfl, rfl⟩

/-- Settles O16: nothing was emitted and nothing is to come. -/
theorem pairsAreWholeAtReset : Obligations.PairsAreWholeAtReset := ⟨noReset_nil, rfl⟩

/-! ### Repeating a write -/

theorem latched_injective (d : Byte) : Function.Injective (latched · d) := by
  intro x y h
  have htoNat := congrArg BitVec.toNat h
  simp only [latched_toNat] at htoNat
  exact BitVec.eq_of_toNat_eq (by omega)

theorem and_tempMask_of_lt {P : Params} {d : Byte} (h : d.toNat < 2 ^ P.hiBits) : d &&& P.tempMask = d :=
  BitVec.eq_of_toNat_eq (by rw [toNat_and_tempMask, Nat.mod_eq_of_lt h])

/-- Settles O33: a masked write is idempotent and the others do not read what they write; a low-byte write latches
`TEMPH`, so after another value there it latches another wide value. -/
theorem writesAreIdempotentButForTheLatch : Obligations.WritesAreIdempotentButForTheLatch := by
  refine ⟨fun P r reg m d => ?_, fun P r reg d x hx hne heq => ?_⟩
  · cases reg <;> simp only [RegSet.write, maskedByte_idem]
  · have htemph : ((r.write P reg.low 0xFF#8 d).write P .temph 0xFF#8 x).temph = x := and_tempMask_of_lt hx
    rw [RegSet.write_low_wideValue, RegSet.write_low_wideValue, if_pos rfl, if_pos rfl, htemph] at heq
    exact hne (latched_injective d heq)

end Sys2Proof.Machine

/-! PROOF. The resolver's laws (`40_period_resolver.md` R73 to R80) and the laws of duty scaling (`42_pwm_channel.md`
R101), in exact arithmetic. -/

namespace Sys2Proof.Machine

/-! ### The prescaler table and the two ways a walk ends -/

/-- Settles O35: the table is the rows `tierRow 0` to `tierRow 14`. -/
theorem prescalerTableRows : Obligations.PrescalerTableRows := by
  refine ⟨rfl, fun i hi => ?_⟩
  rw [prescalerTable_eq, List.getElem?_map, List.getElem?_range hi]
  rfl

/-- R74: the walk ends at the first row that fits, or at the table's end when none does. -/
theorem resolve_cases (res n : Nat) :
    (∃ i, i < 15 ∧ n < res * 2 ^ i ∧ (∀ j, j < i → res * 2 ^ j ≤ n) ∧
      resolve res n = ⟨BitVec.ofNat 4 (i + 1), n / 2 ^ i, false⟩) ∨
    (res * 2 ^ 14 ≤ n ∧ resolve res n = ⟨15#4, res - 1, true⟩) := by
  by_cases hfit : ∃ i, i < 15 ∧ n < res * 2 ^ i
  · obtain ⟨hi, hn⟩ := Nat.find_spec hfit
    have hfirst : ∀ j, j < Nat.find hfit → ¬ n < res * 2 ^ j :=
      fun j hj hn => Nat.find_min hfit hj ⟨hj.trans hi, hn⟩
    exact .inl ⟨_, hi, hn, fun j hj => Nat.le_of_not_lt (hfirst j hj), resolve_of_first_fit hi hn hfirst⟩
  · have hnone : ∀ i, i < 15 → ¬ n < res * 2 ^ i := fun i hi hn => hfit ⟨i, hi, hn⟩
    exact .inr ⟨Nat.le_of_not_lt (hnone 14 (by decide)), resolve_of_no_fit hnone⟩

/-- R73: the selector code of row `i`. -/
theorem tierCode_toNat {i : Nat} (h : i < 15) : (BitVec.ofNat 4 (i + 1)).toNat = i + 1 := by
  rw [BitVec.toNat_ofNat]
  exact Nat.mod_eq_of_lt (by omega)

/-! ### The closed form -/

theorem bitlen_le_iff (n k : Nat) : bitlen n ≤ k ↔ n < 2 ^ k := by
  unfold bitlen
  split
  case isTrue h => simp [h]
  case isFalse h => rw [Nat.succ_le_iff, Nat.log2_lt h]

/-- R74, R75: row `i` fits when the bits of `n` beyond the counter's are at most `i`. -/
theorem fits_row_iff (P : Params) (n i : Nat) : n < P.res * 2 ^ i ↔ bitlen n - P.counterBits.bits ≤ i := by
  rw [Params.res, ← pow_add, ← bitlen_le_iff, Nat.sub_le_iff_le_add']

/-- Settles O37: by `fits_row_iff` the first row that fits is the one of index `bitlen n - COUNTER_BITS`. -/
theorem resolveClosedForm : Obligations.ResolveClosedForm := by
  intro P n
  split
  case isTrue h =>
    rw [Nat.shiftRight_eq_div_pow]
    refine resolve_of_first_fit (by omega) ((fits_row_iff P n _).mpr le_rfl) fun j hj hn => ?_
    exact absurd ((fits_row_iff P n j).mp hn) (by omega)
  case isFalse h =>
    refine resolve_of_no_fit fun i hi hn => ?_
    exact absurd ((fits_row_iff P n i).mp hn) (by omega)

/-! ### The laws of the resolver -/

/-- L1: the selector code is 1 to 15. -/
theorem resolve_code_range (res n : Nat) : 1 ≤ (resolve res n).code.toNat ∧ (resolve res n).code.toNat ≤ 15 := by
  obtain ⟨i, hi, -, -, h⟩ | ⟨-, h⟩ := resolve_cases res n
  · rw [h, tierCode_toNat hi]; omega
  · rw [h]; exact ⟨Nat.one_le_ofNat, le_rfl⟩

/-- L2: the counter-top value is at most `RES - 1`. -/
theorem resolve_top_le (P : Params) (n : Nat) : (resolve P.res n).top ≤ P.res - 1 :=
  Nat.le_sub_one_of_lt (resolveIn_top_lt (res_pos P) n prescalerTable)

/-- L6: when a count saturates. -/
theorem resolve_saturated_iff (res n : Nat) : (resolve res n).saturated = true ↔ res * 16384 ≤ n := by
  obtain ⟨i, hi, hn, -, h⟩ | ⟨hn, h⟩ := resolve_cases res n
  · have : n < res * 16384 :=
      hn.trans_le (Nat.mul_le_mul_left res (Nat.pow_le_pow_right (n := 2) Nat.two_pos (Nat.le_of_lt_succ hi)))
    simp only [h, Bool.false_eq_true, false_iff]
    omega
  · rw [h]; exact iff_of_true rfl hn

/-- What an unsaturated count resolves to: the first row `i` that fits, and the quotient. -/
theorem resolve_unsaturated {res n : Nat} (h : (resolve res n).saturated = false) :
    ∃ i, i < 15 ∧ n < res * 2 ^ i ∧ (∀ j, j < i → res * 2 ^ j ≤ n) ∧
      (resolve res n).code.toNat - 1 = i ∧ (resolve res n).top = n / 2 ^ i := by
  obtain ⟨i, hi, hn, hfirst, hres⟩ | ⟨-, hres⟩ := resolve_cases res n
  · exact ⟨i, hi, hn, hfirst, by rw [hres, tierCode_toNat hi, Nat.add_sub_cancel], by rw [hres]⟩
  · rw [hres] at h; cases h

/-- What a saturated count resolves to. -/
theorem resolve_saturated {res n : Nat} (h : (resolve res n).saturated = true) :
    (resolve res n).code = 15#4 ∧ (resolve res n).top = res - 1 := by
  obtain ⟨i, -, -, -, hres⟩ | ⟨-, hres⟩ := resolve_cases res n
  · rw [hres] at h; cases h
  · rw [hres]; exact ⟨rfl, rfl⟩

/-- L3: no smaller ratio keeps the quotient below `RES`. -/
theorem resolve_smallest_ratio (P : Params) {n : Nat} (h : (resolve P.res n).saturated = false) :
    n / 2 ^ ((resolve P.res n).code.toNat - 1) ≤ P.res - 1 ∧
      ∀ j, j < 15 → n / 2 ^ j ≤ P.res - 1 → (resolve P.res n).code.toNat - 1 ≤ j := by
  have fit_iff (j : Nat) : n / 2 ^ j ≤ P.res - 1 ↔ n < P.res * 2 ^ j := by
    rw [← Nat.div_lt_iff_lt_mul (by positivity)]
    have := res_pos P
    omega
  obtain ⟨i, -, hn, hfirst, hcode, -⟩ := resolve_unsaturated h
  rw [hcode]
  refine ⟨(fit_iff i).mpr hn, fun j _ hj => ?_⟩
  by_contra hlt
  exact absurd (hfirst j (by omega)) (Nat.not_le.mpr ((fit_iff j).mp hj))

/-- L4: the quotient is short of the count by less than one tick of the ratio. -/
theorem resolve_error_lt_ratio {res n : Nat} (h : (resolve res n).saturated = false) :
    2 ^ ((resolve res n).code.toNat - 1) * (resolve res n).top ≤ n ∧
      n - 2 ^ ((resolve res n).code.toNat - 1) * (resolve res n).top < 2 ^ ((resolve res n).code.toNat - 1) := by
  obtain ⟨i, -, -, -, hcode, htop⟩ := resolve_unsaturated h
  rw [hcode, htop]
  have hdiv := Nat.div_add_mod n (2 ^ i)
  have hmod := Nat.mod_lt n (Nat.two_pow_pos i)
  omega

theorem res_ge (P : Params) : 1024 ≤ P.res := by
  cases h : P.counterBits <;> simp [Params.res, h, CounterBits.bits]

theorem res_even (P : Params) : P.res / 2 * 2 = P.res := by
  cases h : P.counterBits <;> simp [Params.res, h, CounterBits.bits]

/-- The row after one that does not fit holds at least half of `RES`. -/
theorem half_res_le_div (P : Params) {n i : Nat} (h : P.res * 2 ^ i ≤ n) : P.res / 2 ≤ n / 2 ^ (i + 1) := by
  rw [Nat.le_div_iff_mul_le (Nat.two_pow_pos _), pow_succ', ← mul_assoc, res_even]
  exact h

/-- L5: from the second tier on the counter-top value is in the upper half. -/
theorem resolve_upper_half (P : Params) {n : Nat} (h : (resolve P.res n).saturated = false)
    (hcode : 2 ≤ (resolve P.res n).code.toNat) : P.res / 2 ≤ (resolve P.res n).top := by
  obtain ⟨i, -, -, hfirst, hi, htop⟩ := resolve_unsaturated h
  obtain ⟨k, rfl⟩ : ∃ k, i = k + 1 := ⟨i - 1, by omega⟩
  rw [htop]
  exact half_res_le_div P (hfirst k k.lt_succ_self)

/-- L7: the realized count grows with the requested one: within a tier as the quotient does, and across tiers because
the higher tier's is at least what the lower tier can hold. -/
theorem resolve_realized_mono (P : Params) {n m : Nat} (hnm : n ≤ m) (hn : (resolve P.res n).saturated = false)
    (hm : (resolve P.res m).saturated = false) :
    2 ^ ((resolve P.res n).code.toNat - 1) * (resolve P.res n).top
      ≤ 2 ^ ((resolve P.res m).code.toNat - 1) * (resolve P.res m).top := by
  obtain ⟨i, -, hfit, hfirst, hcode, htop⟩ := resolve_unsaturated hn
  obtain ⟨k, -, hfit', hfirst', hcode', htop'⟩ := resolve_unsaturated hm
  rw [hcode, htop, hcode', htop']
  obtain hlt | rfl | hgt := Nat.lt_trichotomy i k
  · obtain ⟨l, rfl⟩ : ∃ l, k = l + 1 := ⟨k - 1, by omega⟩
    calc 2 ^ i * (n / 2 ^ i) ≤ n := Nat.mul_div_le ..
      _ ≤ P.res * 2 ^ i := hfit.le
      _ ≤ P.res * 2 ^ l := Nat.mul_le_mul_left _ (Nat.pow_le_pow_right Nat.two_pos (Nat.le_of_lt_succ hlt))
      _ = 2 ^ (l + 1) * (P.res / 2) := by rw [pow_succ', mul_right_comm, mul_comm 2, res_even]
      _ ≤ 2 ^ (l + 1) * (m / 2 ^ (l + 1)) := Nat.mul_le_mul_left _ (half_res_le_div P (hfirst' l l.lt_succ_self))
  · exact Nat.mul_le_mul_left _ (Nat.div_le_div_right hnm)
  · exact absurd (hfirst k hgt) (by omega)

/-- Settles O38: the laws L1 to L7, one lemma each. -/
theorem resolverLaws : Obligations.ResolverLaws :=
  fun P n => ⟨resolve_code_range P.res n, resolve_top_le P n, resolve_smallest_ratio P, resolve_error_lt_ratio,
    resolve_upper_half P, resolve_saturated_iff P.res n, fun _ => resolve_realized_mono P⟩

/-! ### Periods -/

/-- R79 (d): below 2000 the exact tick count is less than 48000, and the smallest counter holds `1024 * 16384`. -/
theorem resolvePeriod_short (P : Params) {p : Nat} (h : p < 2000) : (resolvePeriod P p).saturated = false := by
  have hcycles : cycles P p < 48000 := by
    rw [cycles]
    obtain hp | hp := Nat.lt_or_ge p 1000
    · rw [clockChoice_full P hp]; dsimp only; omega
    · rw [clockChoice_half P hp h]; dsimp only; omega
  have hres := res_ge P
  rw [← Bool.not_eq_true, resolvePeriod, resolve_saturated_iff]
  omega

/-- Settles O39: L6 at the exact tick count, which below 2000 is too small. -/
theorem saturationOfPeriods : Obligations.SaturationOfPeriods := by
  intro P p
  refine ⟨resolvePeriod_short P, fun h => ?_, resolve_saturated⟩
  rw [resolvePeriod, resolve_saturated_iff, cycles, clockChoice_base P h, Params.mBase]

theorem clockChoice_bands (P : Params) (p : Nat) :
    clockChoice P p = ⟨.pllFull, 48, true⟩ ∨ clockChoice P p = ⟨.pllHalf, 24, P.pllcfgInHalfBranch⟩ ∨
      clockChoice P p = ⟨.base, P.mBase, false⟩ := by
  obtain h | h := Nat.lt_or_ge p 1000
  · exact .inl (clockChoice_full P h)
  · obtain h' | h' := Nat.lt_or_ge p 2000
    · exact .inr (.inl (clockChoice_half P h h'))
    · exact .inr (.inr (clockChoice_base P h'))

/-- R72, R80: with a base clock of a multiple of 2 MHz the frequency of every source is its multiplier in 2 MHz. -/
theorem sourceHz_eq (P : Params) (p : Nat) (h : 2000000 ∣ P.baseClockHz) :
    sourceHz P (clockChoice P p).src = 2000000 * (clockChoice P p).mult := by
  obtain hp | hp | hp := clockChoice_bands P p
  · rw [hp]; norm_num [sourceHz, Config.pllHz]
  · rw [hp]; norm_num [sourceHz, Config.pllHz]
  · rw [hp]; exact (Nat.mul_div_cancel' h).symm

theorem mult_pos (P : Params) (p : Nat) (h0 : 0 < P.baseClockHz) (h : 2000000 ∣ P.baseClockHz) :
    0 < (clockChoice P p).mult := by
  obtain hp | hp | hp := clockChoice_bands P p
  · rw [hp]; norm_num
  · rw [hp]; norm_num
  · rw [hp]; exact Nat.div_pos (Nat.le_of_dvd h0 h) (by norm_num)

/-- R80: the realized period is `ratio * top / M`. -/
theorem realizedPeriod_eq (P : Params) (p : Nat) (h0 : 0 < P.baseClockHz) (h : 2000000 ∣ P.baseClockHz) :
    realizedPeriod P p = (ratioOf (resolvePeriod P p).code * (resolvePeriod P p).top : ℚ) / (clockChoice P p).mult := by
  have hmult : ((clockChoice P p).mult : ℚ) ≠ 0 := by exact_mod_cast (mult_pos P p h0 h).ne'
  rw [realizedPeriod, sourceHz_eq P p h]
  push_cast
  field_simp
  ring

/-- Settles O40: `realizedPeriod_eq`, and L4 at the exact tick count `M * p`, divided by `M`. -/
theorem realizedPeriodIsWithinOneTick : Obligations.RealizedPeriodIsWithinOneTick := by
  intro P p h0 h
  have hmult : (0 : ℚ) < (clockChoice P p).mult := by exact_mod_cast mult_pos P p h0 h
  refine ⟨realizedPeriod_eq P p h0 h, fun hsat => ?_⟩
  obtain ⟨hle, hlt⟩ := resolve_error_lt_ratio (res := P.res) (n := cycles P p) hsat
  have hle' : (ratioOf (resolvePeriod P p).code * (resolvePeriod P p).top : ℚ) ≤ (clockChoice P p).mult * p := by
    exact_mod_cast hle
  have hlt' : ((clockChoice P p).mult * p : ℚ)
      < ratioOf (resolvePeriod P p).code + ratioOf (resolvePeriod P p).code * (resolvePeriod P p).top := by
    exact_mod_cast (Nat.sub_lt_iff_lt_add hle).mp hlt
  rw [realizedPeriod_eq P p h0 h]
  constructor
  · rw [div_le_iff₀ hmult]; linarith
  · rw [sub_lt_iff_lt_add, ← add_div, lt_div_iff₀ hmult]; linarith

/-! ### Duty scaling -/

theorem physDuty_eq (top duty : Nat) : physDuty top duty = top * duty / 1024 := Nat.shiftRight_eq_div_pow ..

/-- Settles O41: each law is one of a division by 1024. -/
theorem physDutyLaws : Obligations.PhysDutyLaws := by
  intro top duty hduty
  rw [Nat.shiftRight_eq_div_pow]
  simp only [physDuty_eq]
  have hbound : top * duty ≤ top * 1023 := Nat.mul_le_mul_left top hduty
  refine ⟨trivial, by omega, by omega, fun h => by omega, by omega, fun h h' => by omega, fun duty' h => ?_, fun top' h => ?_,
    by omega⟩
  · exact Nat.div_le_div_right (Nat.mul_le_mul_left top h)
  · exact Nat.div_le_div_right (Nat.mul_le_mul_right duty h)

end Sys2Proof.Machine

/-! PROOF. What a command can write. `Event.Allowed` is the table of the events each command may emit (`10_state.md` R10
to R25, `70_reset_and_hazards.md` R155, R156), `allowed_of_mem_events` says that its actions emit no other, and who
writes what follows by frame lemmas over the events. -/

namespace Sys2Proof.Machine

/-! ### The channels -/

theorem index_of_channelComparator {ch : Chan} {k : Comparator} (h : channelComparator ch = some k) :
    k.index = ch.toNat / 2 := by
  revert ch
  cases k <;> decide

/-- R100, R106: a channel has a comparator or is unsupported. -/
theorem channel_cases (ch : Chan) : (ch.toNat ≤ 5 ∧ ∃ k : Comparator, k.index = ch.toNat / 2) ∨ 5 < ch.toNat := by
  obtain h | h := Nat.lt_or_ge 5 ch.toNat
  · exact .inr h
  · obtain ⟨k, hk⟩ := channelComparator_of_supported h
    exact .inl ⟨h, k, index_of_channelComparator hk⟩

/-- R23: the mode bits are bits 2:0. -/
theorem pwmBit_reserved (k : Comparator) : pwmBit k &&& 0xF8#8 = 0#8 := by
  cases k <;> decide

/-- R22: the output-enable bits of the supported channels are bits 5:0. -/
theorem outputBit_reserved {ch : Chan} (h : ch.toNat ≤ 5) : outputBit ch &&& 0xC0#8 = 0#8 := by
  revert ch
  decide

/-! ### The events a command may emit -/

/-- The commands that run START's actions (R91, R93). -/
def StartsCounter (i : Instr) : Prop := i = .start ∨ i = .restart

/-- The commands that contain ENPWM (R103, R104). -/
def EnablesPwm (i : Instr) : Prop := (∃ ch d, i = .enpwm ch d) ∨ ∃ ch d p, i = .enpwmp ch d p

/-- The commands that contain ATTACH (R111, R112). -/
def Attaches (i : Instr) : Prop := (∃ h, i = .attach h) ∨ ∃ h p, i = .attachp h p

/-- The writes each command may emit: the rule of each register names its writers, and says which bits they write. -/
def WriteAllowed (i : Instr) (reg : Reg) (mask data : Byte) : Prop :=
  match reg with
  | .ctrl => setsRun i = true ∧ data &&& 0xE0#8 = 0#8
  | .temph => mask = 0xFF#8
  | .topl => setsPeriod i = true ∧ mask = 0xFF#8
  | .cntl => StartsCounter i ∧ mask = 0xFF#8
  | .cmpl0 | .cmpl1 | .cmpl2 => (EnablesPwm i ∨ ∃ ch d, i = .setpwmduty ch d) ∧ mask = 0xFF#8
  | .imask => mask = 0xFF#8 ∧ (Attaches i ∧ data = 0x01#8 ∨ i = .detach ∧ data = 0x00#8)
  | .outen => (EnablesPwm i ∨ ∃ ch, i = .dispwm ch) ∧ mask &&& 0xC0#8 = 0#8
  | .pwmen => EnablesPwm i ∧ mask &&& 0xF8#8 = 0#8
  | .clksrc => setsPeriod i = true ∧ mask = 0x03#8 ∧ data.toNat ≤ 2
  | .pllcfg => setsPeriod i = true

/-- The events each command may emit. -/
def Event.Allowed (i : Instr) : Event → Prop
  | .w reg mask data => WriteAllowed i reg mask data
  | .pin ch => ch.toNat ≤ 5
  | .cb _ => False

theorem allowed_of_mem_periodEvents {i : Instr} (hi : setsPeriod i = true) (P : Params) (p : Period) :
    ∀ e ∈ periodEvents P p, e.Allowed i := by
  intro e he
  have hsrc (src : ClockSource) : src.code.toNat ≤ 2 := by cases src <;> decide
  simp only [periodEvents, List.mem_append, List.mem_ite_nil_right, List.mem_cons, List.not_mem_nil, or_false] at he
  obtain (rfl | ⟨-, rfl⟩) | rfl | rfl := he
  · exact ⟨hi, rfl, hsrc _⟩
  · exact hi
  · rfl
  · exact ⟨hi, rfl⟩

theorem allowed_of_mem_dutyEvents {i : Instr} (hi : EnablesPwm i ∨ ∃ ch d, i = .setpwmduty ch d) (k : Comparator)
    (pd : Nat) : ∀ e ∈ dutyEvents k pd, e.Allowed i := by
  intro e he
  simp only [dutyEvents, List.mem_cons, List.not_mem_nil, or_false] at he
  obtain rfl | rfl := he
  · rfl
  · cases k <;> exact ⟨hi, rfl⟩

theorem allowed_of_mem_dutyActions {i : Instr} (hi : EnablesPwm i ∨ ∃ ch d, i = .setpwmduty ch d) (top : Wide)
    (ch : Chan) (d : Duty) : ∀ e ∈ eventsOf (dutyActions top ch d), e.Allowed i := by
  obtain ⟨-, k, hk⟩ | h := channel_cases ch
  · rw [eventsOf_dutyActions hk]
    exact allowed_of_mem_dutyEvents hi k _
  · rw [dutyActions_of_unsupported h]
    exact fun _ he => absurd he List.not_mem_nil

theorem allowed_of_mem_enablePwmActions {i : Instr} (hi : EnablesPwm i) (top : Wide) (ch : Chan) (d : Duty) :
    ∀ e ∈ eventsOf (enablePwmActions top ch d), e.Allowed i := by
  obtain ⟨hch, k, hk⟩ | h := channel_cases ch
  · rw [enablePwmActions_of_index hk, eventsOf_append]
    intro e he
    obtain he | he := List.mem_append.mp he
    · simp only [eventsOf, List.flatMap_cons, Action.events, List.flatMap_nil, List.cons_append, List.nil_append,
        List.mem_cons, List.not_mem_nil, or_false] at he
      obtain rfl | rfl | rfl := he
      · exact ⟨hi, pwmBit_reserved k⟩
      · exact ⟨.inl hi, outputBit_reserved hch⟩
      · exact hch
    · exact allowed_of_mem_dutyActions (.inl hi) top ch d e he
  · rw [enablePwmActions_of_unsupported h]
    exact fun _ he => absurd he List.not_mem_nil

theorem allowed_of_mem_disablePwmActions (ch : Chan) :
    ∀ e ∈ eventsOf (disablePwmActions ch), e.Allowed (.dispwm ch) := by
  obtain ⟨hch, -⟩ | h := channel_cases ch
  · rw [disablePwmActions_of_supported hch]
    intro e he
    obtain rfl := List.mem_singleton.mp he
    exact ⟨.inr ⟨ch, rfl⟩, outputBit_reserved hch⟩
  · rw [disablePwmActions_of_unsupported h]
    exact fun _ he => absurd he List.not_mem_nil

/-- R16: the restoring write's data has no bit above the mode's low bit. -/
theorem restoreByte_reserved (cs : CsCode) : restoreByte cs &&& 0xE0#8 = 0#8 := by
  revert cs; decide

theorem allowed_of_mem_startActions {i : Instr} (hi : StartsCounter i) (cs : CsCode) :
    ∀ e ∈ eventsOf (startActions cs), e.Allowed i := by
  have hrun : setsRun i = true := by obtain rfl | rfl := hi <;> rfl
  exact List.forall_mem_cons.mpr ⟨rfl, List.forall_mem_cons.mpr ⟨⟨hi, rfl⟩, List.forall_mem_cons.mpr ⟨⟨hrun, rfl⟩,
    List.forall_mem_singleton.mpr ⟨hrun, restoreByte_reserved cs⟩⟩⟩⟩

theorem allowed_of_mem_attachActions {i : Instr} (hi : Attaches i) (h : Handle) :
    ∀ e ∈ eventsOf (attachActions h), e.Allowed i :=
  List.forall_mem_singleton.mpr ⟨rfl, .inl ⟨hi, rfl⟩⟩

/-- Every event of a command's actions is in the table. -/
theorem allowed_of_mem_events (s : State) (i : Instr) : ∀ e ∈ eventsOf (actionsOf s i), e.Allowed i := by
  have period {j : Instr} (hj : setsPeriod j = true) (p : Period) :
      ∀ e ∈ eventsOf (setPeriodActions s.params p), e.Allowed j := by
    rw [eventsOf_setPeriodActions]; exact allowed_of_mem_periodEvents hj s.params p
  have both {as bs : List Action} {j : Instr} (ha : ∀ e ∈ eventsOf as, e.Allowed j)
      (hb : ∀ e ∈ eventsOf bs, e.Allowed j) : ∀ e ∈ eventsOf (as ++ bs), e.Allowed j := by
    rw [eventsOf_append]; exact List.forall_mem_append.mpr ⟨ha, hb⟩
  cases i with
  | init p | setperiod p => exact period rfl p
  | start => exact allowed_of_mem_startActions (.inl rfl) _
  | restart => exact allowed_of_mem_startActions (.inr rfl) _
  | stop => exact List.forall_mem_singleton.mpr ⟨rfl, rfl⟩
  | resume => exact List.forall_mem_singleton.mpr ⟨rfl, restoreByte_reserved _⟩
  | setpwmduty ch d => exact allowed_of_mem_dutyActions (.inr ⟨ch, d, rfl⟩) _ ch d
  | enpwm ch d => exact allowed_of_mem_enablePwmActions (.inl ⟨ch, d, rfl⟩) _ ch d
  | enpwmp ch d p => exact both (period rfl p) (allowed_of_mem_enablePwmActions (.inr ⟨ch, d, p, rfl⟩) _ ch d)
  | dispwm ch => exact allowed_of_mem_disablePwmActions ch
  | attach h => exact allowed_of_mem_attachActions (.inl ⟨h, rfl⟩) h
  | attachp h p => exact both (period rfl p) (allowed_of_mem_attachActions (.inr ⟨h, p, rfl⟩) h)
  | detach => exact List.forall_mem_singleton.mpr ⟨rfl, .inr ⟨rfl, rfl⟩⟩

/-- R41, R140: what a command adds to the trace is, callbacks apart, some of its actions' events, whatever the environment
does. -/
theorem commandEvents_prefix {i : Instr} {s t : State} {es : List Event} (h : exec i s = .next t)
    (hes : t.trace = s.trace ++ es) : commandEvents es <+: eventsOf (actionsOf s i) := by
  obtain ⟨-, rfl⟩ | ⟨-, ha | ha⟩ := exec_inversion h
  · obtain rfl : es = [] := List.self_eq_append_right.mp hes
    exact List.nil_prefix
  · obtain ⟨added, hadded, hev⟩ := ha.trace
    obtain rfl : added = es := List.append_cancel_left (hadded.symm.trans hes)
    rw [hev]
  · obtain ⟨added, hadded, hev⟩ := ha.trace
    obtain rfl : added = es := List.append_cancel_left (hadded.symm.trans hes)
    exact hev

/-- Every event a command adds, callbacks apart, is in the table. -/
theorem allowed_of_added {i : Instr} {s t : State} {es : List Event} (h : exec i s = .next t)
    (hes : t.trace = s.trace ++ es) {e : Event} (he : e ∈ es) (hc : e.ofCommand = true) : e.Allowed i :=
  allowed_of_mem_events s i e ((commandEvents_prefix h hes).subset (List.mem_filter.mpr ⟨he, hc⟩))

/-- Settles O30: the table admits no other event. -/
theorem emittedEventsAreLegal : Obligations.EmittedEventsAreLegal := by
  intro i s t es h hes
  have write {reg : Reg} {m d : Byte} (he : Event.w reg m d ∈ es) : WriteAllowed i reg m d :=
    allowed_of_added h hes he rfl
  refine ⟨fun ch he => allowed_of_added h hes he rfl, fun reg m d he hpair => ?_, fun m d he => (write he).2,
    fun m d he => (write he).2, fun m d he => ?_⟩
  · have ha := write he
    cases reg with
    | temph => exact ha
    | topl | cntl | cmpl0 | cmpl1 | cmpl2 => exact ha.2
    | ctrl | imask | outen | pwmen | clksrc | pllcfg => simp [Event.opensPair, Event.closesPair] at hpair
  · obtain ⟨hm, ⟨-, rfl⟩ | ⟨-, rfl⟩⟩ := write he
    · exact ⟨hm, by decide⟩
    · exact ⟨hm, by decide⟩

/-! ### The registers a command leaves alone -/

/-- What every write of a list keeps, the list keeps. -/
theorem regsAfter_keeps {α : Type} (f : RegSet → α) (P : Params) (acts : List Action)
    (hw : ∀ reg m d, Event.w reg m d ∈ eventsOf acts → ∀ r, f (r.write P reg m d) = f r) (r : RegSet) :
    f (regsAfter P acts r) = f r := by
  induction acts generalizing r with
  | nil => rfl
  | cons a rest ih =>
    have hrest : f (regsAfter P rest (a.regs P r)) = f (a.regs P r) :=
      ih (fun reg m d he => hw reg m d (List.mem_append_right _ he)) _
    have hhead {reg : Reg} {m d : Byte} (he : Event.w reg m d ∈ a.events) (r : RegSet) :
        f (r.write P reg m d) = f r := hw reg m d (List.mem_append_left _ he) r
    have ha : f (a.regs P r) = f r := by
      cases a with
      | w reg m d => exact hhead List.mem_cons_self r
      | wide reg v =>
        exact (hhead (List.mem_cons_of_mem _ List.mem_cons_self) _).trans (hhead List.mem_cons_self r)
      | pin ch | setConfig code top | setHandle h | setRun q => rfl
    exact hrest.trans ha

/-- What every write in the table of a command keeps, and no movement of the counter touches, the command keeps. -/
theorem exec_keeps_regs {α : Type} (f : RegSet → α) {i : Instr} {s t : State} (hreset : NoReset s.env)
    (h : exec i s = .next t) (hcnt : NoTick s.env ∨ ∀ r c, f { r with cnt := c } = f r)
    (hw : ∀ reg m d, WriteAllowed i reg m d → ∀ r, f (r.write s.params reg m d) = f r) : f t.regs = f s.regs := by
  obtain ⟨-, rfl⟩ | ⟨-, ha | ha⟩ := exec_inversion h
  · rfl
  · have hregs : f t.regs = f (regsAfter s.params (actionsOf s i) s.regs) := by
      rw [ha.regs]
      obtain hn | hf := hcnt
      · rw [ha.cnt hn]
      · rw [hf]
    rw [hregs]
    exact regsAfter_keeps f s.params _ (fun reg m d he => hw reg m d (allowed_of_mem_events s i _ he)) _
  · exact absurd ha.came hreset

/-- What a location holds, as a number. -/
def RegSet.location (r : RegSet) : Reg → Nat
  | .ctrl => r.ctrl.toNat
  | .temph => r.temph.toNat
  | .topl => r.top.toNat
  | .cntl => r.cnt.toNat
  | .cmpl0 => r.cmp0.toNat
  | .cmpl1 => r.cmp1.toNat
  | .cmpl2 => r.cmp2.toNat
  | .imask => r.imask.toNat
  | .outen => r.outen.toNat
  | .pwmen => r.pwmen.toNat
  | .clksrc => r.clksrc.toNat
  | .pllcfg => r.pllcfg.toNat

/-- R31: a write changes no other location. -/
theorem RegSet.write_location_of_ne (P : Params) (r : RegSet) {reg reg' : Reg} (h : reg' ≠ reg) (m d : Byte) :
    (r.write P reg m d).location reg' = r.location reg' := by
  cases reg <;> cases reg'
  case ctrl.ctrl | temph.temph | topl.topl | cntl.cntl | cmpl0.cmpl0 | cmpl1.cmpl1 | cmpl2.cmpl2 | imask.imask
      | outen.outen | pwmen.pwmen | clksrc.clksrc | pllcfg.pllcfg => exact absurd rfl h
  all_goals rfl

theorem RegSet.location_setCnt (r : RegSet) (c : Wide) {reg : Reg} (h : reg ≠ .cntl) :
    RegSet.location { r with cnt := c } reg = r.location reg := by
  cases reg
  case cntl => exact absurd rfl h
  all_goals rfl

/-- A command whose table has no write of a location keeps it; of `CNT` only while it does not move by itself. -/
theorem exec_keeps_location {i : Instr} {s t : State} (hreset : NoReset s.env) (h : exec i s = .next t) {reg : Reg}
    (hcnt : reg = .cntl → NoTick s.env) (hw : ∀ m d, ¬ WriteAllowed i reg m d) :
    t.regs.location reg = s.regs.location reg := by
  refine exec_keeps_regs (RegSet.location · reg) hreset h ?_ fun reg' m d ha r => ?_
  · by_cases hreg : reg = .cntl
    · exact .inl (hcnt hreg)
    · exact .inr fun r c => r.location_setCnt c hreg
  · have hne : reg ≠ reg' := fun he => hw m d (he ▸ ha)
    exact r.write_location_of_ne s.params hne m d

/-- Settles O28: each clause's premises rule the location's row of the table out. -/
theorem registersWrittenOnlyByTheirCommands : Obligations.RegistersWrittenOnlyByTheirCommands := by
  intro i s t hreset h
  have kept {reg : Reg} (hreg : reg ≠ .cntl) (hw : ∀ m d, ¬ WriteAllowed i reg m d) :
      t.regs.location reg = s.regs.location reg := exec_keeps_location hreset h (fun hc => absurd hc hreg) hw
  refine ⟨fun hi => ?_, fun hi => ?_, fun h1 h2 hn => ?_, fun h1 h2 h3 => ?_, fun h1 h2 => ?_⟩
  · have hi' : setsPeriod i ≠ true := hi ▸ Bool.false_ne_true
    exact ⟨BitVec.eq_of_toNat_eq (kept (reg := .topl) (by decide) fun _ _ ha => hi' ha.1),
      BitVec.eq_of_toNat_eq (kept (reg := .clksrc) (by decide) fun _ _ ha => hi' ha.1),
      BitVec.eq_of_toNat_eq (kept (reg := .pllcfg) (by decide) fun _ _ ha => hi' ha)⟩
  · have hi' : setsRun i ≠ true := hi ▸ Bool.false_ne_true
    exact BitVec.eq_of_toNat_eq (kept (reg := .ctrl) (by decide) fun _ _ ha => hi' ha.1)
  · exact BitVec.eq_of_toNat_eq
      (exec_keeps_location (reg := .cntl) hreset h (fun _ => hn) fun _ _ ha => ha.1.elim h1 h2)
  · have hattach : ¬ Attaches i := fun ha => ha.elim (fun ⟨c, hc⟩ => h1 c hc) fun ⟨c, p, hc⟩ => h2 c p hc
    exact BitVec.eq_of_toNat_eq (kept (reg := .imask) (by decide)
      fun _ _ ha => ha.2.elim (fun ha => hattach ha.1) fun ha => h3 ha.1)
  · have henable : ¬ EnablesPwm i := fun ha => ha.elim (fun ⟨c, d, hc⟩ => h1 c d hc) fun ⟨c, d, p, hc⟩ => h2 c d p hc
    refine ⟨BitVec.eq_of_toNat_eq (kept (reg := .pwmen) (by decide) fun _ _ ha => henable ha.1), fun h3 => ?_,
      fun h3 k => ?_⟩
    · exact BitVec.eq_of_toNat_eq (kept (reg := .outen) (by decide)
        fun _ _ ha => ha.1.elim henable fun ⟨c, hc⟩ => h3 c hc)
    · have hduty : ¬ (EnablesPwm i ∨ ∃ ch d, i = .setpwmduty ch d) :=
        fun ha => ha.elim henable fun ⟨c, d, hc⟩ => h3 c d hc
      cases k with
      | k0 => exact BitVec.eq_of_toNat_eq (kept (reg := .cmpl0) (by decide) fun _ _ ha => hduty ha.1)
      | k1 => exact BitVec.eq_of_toNat_eq (kept (reg := .cmpl1) (by decide) fun _ _ ha => hduty ha.1)
      | k2 => exact BitVec.eq_of_toNat_eq (kept (reg := .cmpl2) (by decide) fun _ _ ha => hduty ha.1)

/-- R31: bits outside a write's mask are kept. -/
theorem maskedByte_and_of_disjoint {mask bits : Byte} (h : mask &&& bits = 0#8) (old data : Byte) :
    maskedByte old mask data &&& bits = old &&& bits := by
  ext j hj
  have hbit : (mask[j] && bits[j]) = false := by
    have := congrArg (fun b : Byte => b[j]) h
    simpa using this
  simp only [maskedByte, BitVec.getElem_and, BitVec.getElem_or, BitVec.getElem_not]
  revert hbit
  cases mask[j] <;> cases bits[j] <;> simp

/-- Settles O29: every mask in the table is disjoint from the reserved bits of its register. -/
theorem reservedBitsAreNeverWritten : Obligations.ReservedBitsAreNeverWritten := by
  intro i s t hreset h
  refine ⟨exec_keeps_regs (·.outen &&& 0xC0#8) hreset h (.inr fun _ _ => rfl) fun reg m d ha r => ?_,
    exec_keeps_regs (·.pwmen &&& 0xF8#8) hreset h (.inr fun _ _ => rfl) fun reg m d ha r => ?_,
    exec_keeps_regs (·.clksrc &&& 0xFC#8) hreset h (.inr fun _ _ => rfl) fun reg m d ha r => ?_⟩
  · cases reg
    case outen => exact maskedByte_and_of_disjoint ha.2 r.outen d
    all_goals rfl
  · cases reg
    case pwmen => exact maskedByte_and_of_disjoint ha.2 r.pwmen d
    all_goals rfl
  · cases reg
    case clksrc =>
      obtain ⟨-, rfl, -⟩ := ha
      exact maskedByte_and_of_disjoint (by decide) r.clksrc d
    all_goals rfl

/-! ### The block state a command leaves alone -/

theorem blockAfter_dutyActions (top : Wide) (ch : Chan) (d : Duty) (b : Block) :
    blockAfter (dutyActions top ch d) b = b := by
  unfold dutyActions; split <;> rfl

theorem blockAfter_disablePwmActions (ch : Chan) (b : Block) : blockAfter (disablePwmActions ch) b = b := by
  unfold disablePwmActions; split <;> rfl

/-- What the command stores in the block state: `run`, the handle and TimerConfig each by its own commands (R10, R13,
R14). -/
theorem blockAfter_actionsOf (s : State) (i : Instr) (b : Block) :
    (setsPeriod i = false → (blockAfter (actionsOf s i) b).cfgCs = b.cfgCs ∧
      (blockAfter (actionsOf s i) b).cfgTop = b.cfgTop ∧ (blockAfter (actionsOf s i) b).cfgValid = b.cfgValid) ∧
    (setsRun i = false → (blockAfter (actionsOf s i) b).run = b.run) ∧
    (blockAfter (actionsOf s i) b).handle = (storesHandle i).or b.handle := by
  cases i with
  | init p | setperiod p => rw [actionsOf, blockAfter_setPeriodActions]; exact ⟨nofun, fun _ => rfl, rfl⟩
  | start | stop | restart | resume => exact ⟨fun _ => ⟨rfl, rfl, rfl⟩, nofun, rfl⟩
  | setpwmduty ch d => rw [actionsOf, blockAfter_dutyActions]; exact ⟨fun _ => ⟨rfl, rfl, rfl⟩, fun _ => rfl, rfl⟩
  | enpwm ch d => rw [actionsOf, blockAfter_enablePwmActions]; exact ⟨fun _ => ⟨rfl, rfl, rfl⟩, fun _ => rfl, rfl⟩
  | enpwmp ch d p =>
    rw [actionsOf, blockAfter_append, blockAfter_enablePwmActions, blockAfter_setPeriodActions]
    exact ⟨nofun, fun _ => rfl, rfl⟩
  | dispwm ch => rw [actionsOf, blockAfter_disablePwmActions]; exact ⟨fun _ => ⟨rfl, rfl, rfl⟩, fun _ => rfl, rfl⟩
  | attach h | detach => exact ⟨fun _ => ⟨rfl, rfl, rfl⟩, fun _ => rfl, rfl⟩
  | attachp h p =>
    rw [actionsOf, blockAfter_append, blockAfter_setPeriodActions]
    exact ⟨nofun, fun _ => rfl, rfl⟩

/-- With no reset to come a command leaves the block state as it was (the inert unit) or as its actions make it. -/
theorem exec_block {i : Instr} {s t : State} (hreset : NoReset s.env) (h : exec i s = .next t) :
    t.block = s.block ∨ t.block = blockAfter (actionsOf s i) s.block := by
  obtain ⟨-, rfl⟩ | ⟨-, ha | ha⟩ := exec_inversion h
  · exact .inl rfl
  · exact .inr ha.block
  · exact absurd ha.came hreset

/-- Settles O26: the first part of `blockAfter_actionsOf`. -/
theorem configWrittenOnlyByPeriodSetting : Obligations.ConfigWrittenOnlyByPeriodSetting := by
  intro i s t hi hreset h
  obtain hb | hb := exec_block hreset h
  · rw [hb]; exact ⟨rfl, rfl, rfl⟩
  · rw [hb]; exact (blockAfter_actionsOf s i s.block).1 hi

/-- Settles O27: the second and third part of `blockAfter_actionsOf`. -/
theorem runAndHandleWriters : Obligations.RunAndHandleWriters := by
  intro i s t hreset h
  obtain ⟨-, hrun, hhandle⟩ := blockAfter_actionsOf s i s.block
  obtain hb | hb := exec_block hreset h
  · rw [hb]; exact ⟨fun _ => rfl, fun _ => rfl⟩
  · rw [hb]
    refine ⟨hrun, fun hi => ?_⟩
    rw [hhandle, hi, Option.none_or]

end Sys2Proof.Machine

/-! PROOF. Whole-machine rules: the invariants of `10_state.md` R28, the pairs of `20_memory.md` R38, and what the
environment can do to a command's run (`43_interrupt_hook.md` R116, `70_reset_and_hazards.md` R140). -/

namespace Sys2Proof.Machine

/-! ### Properties that a step keeps -/

section Keeps

variable {Q : State → Prop} (henv : ∀ t e, Q t → Q { t with env := e })
  (hover : ∀ t : State, Q t → Q t.deliverOverflow) (htick : ∀ (t : State) (v : Wide), Q t → Q (t.tick v))
  (hreset : ∀ t : State, Q t → Q t.hardReset)

include henv htick hreset

/-- What every input, every event and the update of an action keep, the action keeps, dropped or not. -/
theorem State.act_keeps (a : Action)
    (hwrite : ∀ t reg m d, Event.w reg m d ∈ a.events → Q t → Q (State.emitW t reg m d))
    (hpin : ∀ t ch, Q t → Q (State.emit t (.pin ch))) (hblock : ∀ t, Q t → Q { t with block := a.block t.block })
    (s : State) (hs : Q s) : Q (s.act a).state := by
  cases a with
  | w reg m d => exact hwrite s reg m d List.mem_cons_self hs
  | pin ch => exact hpin s ch hs
  | setConfig code top | setHandle h | setRun r => exact hblock s hs
  | wide reg v =>
    have hpoint := pairPoint_keeps henv htick hreset s.env _
      (hwrite s .temph 0xFF#8 (wideHigh v) List.mem_cons_self hs)
    rw [State.act, State.writeWide]
    cases hflow : pairPoint s.env (s.emitW .temph 0xFF#8 (wideHigh v)) with
    | dropped t => rwa [hflow] at hpoint
    | go t =>
      rw [hflow] at hpoint
      exact hwrite t reg.low 0xFF#8 (wideLow v) (List.mem_cons_of_mem _ List.mem_cons_self) hpoint

include hover

/-- What every input, every write of a command's table, every pin request and every update of its actions keep, the
command keeps, whatever the environment does. -/
theorem exec_keeps {i : Instr} {s t : State} (h : exec i s = .next t)
    (hwrite : ∀ u reg m d, WriteAllowed i reg m d → Q u → Q (State.emitW u reg m d))
    (hpin : ∀ u ch, Q u → Q (State.emit u (.pin ch)))
    (hblock : ∀ a ∈ actionsOf s i, ∀ u, Q u → Q { u with block := a.block u.block }) (hs : Q s) : Q t := by
  rw [exec_eq, runCommand] at h
  cases h
  split
  · refine perform_keeps henv hover htick hreset _ (fun a ha => ?_) s hs
    refine State.act_keeps henv htick hreset a (fun u reg m d he => hwrite u reg m d ?_) hpin (hblock a ha)
    exact allowed_of_mem_events s i _ (List.mem_flatMap_of_mem ha he)
  · exact hs

omit henv

/-- What every input between two commands and every command keep, a step keeps. -/
theorem step_keeps (henv : ∀ t e ws, Q t → Q { t with env := e, cmds := ws })
    (hexec : ∀ i t u, exec i t = .next u → Q t → Q u) {s t : State} (h : step s = .next t) (hs : Q s) : Q t := by
  have hs' (e : List EnvInput) : Q { s with env := e } := henv s e s.cmds hs
  obtain ⟨e, -, ws, rfl | ⟨i, hi⟩⟩ | ⟨e, -, rfl⟩ | ⟨v, e, -, rfl⟩ | ⟨e, -, rfl⟩ := step_cases h
  · exact henv s e ws hs
  · exact hexec i _ t hi (henv s e ws hs)
  · exact hover _ (hs' e)
  · exact htick _ v (hs' e)
  · exact hreset _ (hs' e)

end Keeps

/-! ### What no step changes -/

/-- R4, R41: what every command, dropped or not, leaves of the parameters, the trace and the environment's inputs. -/
theorem exec_frame {i : Instr} {s t : State} (h : exec i s = .next t) :
    t.params = s.params ∧ s.trace <+: t.trace ∧ t.env <:+ s.env := by
  obtain ⟨-, rfl⟩ | ⟨-, ha | ha⟩ := exec_inversion h
  · exact ⟨rfl, List.prefix_rfl, List.suffix_rfl⟩
  · obtain ⟨added, hadded, -⟩ := ha.trace
    exact ⟨ha.params, ⟨added, hadded.symm⟩, ha.env⟩
  · obtain ⟨added, hadded, -⟩ := ha.trace
    exact ⟨ha.params, ⟨added, hadded.symm⟩, ha.env⟩

/-- Settles O19: no input and no command changes them. -/
theorem noStepChangesTheParameters : Obligations.NoStepChangesTheParameters := by
  intro s t h
  exact step_keeps (Q := fun u => u.params = s.params) (fun _ hu => (State.deliverOverflow_params _).trans hu)
    (fun _ v hu => (State.tick_params _ v).trans hu) (fun _ hu => hu) (fun _ _ _ hu => hu)
    (fun _ _ _ hexec hu => (exec_frame hexec).1.trans hu) h rfl

/-- R41: a step only appends to the trace. -/
theorem trace_prefix_of_step {s t : State} (h : step s = .next t) : s.trace <+: t.trace :=
  step_keeps (Q := fun u => s.trace <+: u.trace)
    (fun u hu => hu.trans ⟨_, (State.deliverOverflow_trace u).symm⟩)
    (fun u v hu => by rwa [State.tick_trace u v]) (fun _ hu => hu) (fun _ _ _ hu => hu)
    (fun _ _ _ hexec hu => hu.trans (exec_frame hexec).2.1) h List.prefix_rfl

/-- R6, R124: a step takes the environment's inputs in their order. -/
theorem env_suffix_of_step {s t : State} (h : step s = .next t) : t.env <:+ s.env := by
  obtain ⟨e, he, ws, rfl | ⟨i, hi⟩⟩ | ⟨e, he, rfl⟩ | ⟨v, e, he, rfl⟩ | ⟨e, he, rfl⟩ := step_cases h
  · obtain ⟨he, rfl⟩ | he := he <;> rw [he]
    exact List.suffix_cons ..
  · refine (exec_frame hi).2.2.trans ?_
    obtain ⟨he, rfl⟩ | he := he <;> rw [he]
    exact List.suffix_cons ..
  · rw [State.deliverOverflow_env, he]; exact List.suffix_cons ..
  · rw [State.tick_env, he]; exact List.suffix_cons ..
  · rw [State.hardReset_env, he]; exact List.suffix_cons ..

/-- Settles O20: the trace by `step_keeps`, the inputs kind by kind of step. -/
theorem everyStepExtendsTheTrace : Obligations.EveryStepExtendsTheTrace :=
  fun _ _ h => ⟨trace_prefix_of_step h, env_suffix_of_step h⟩

/-! ### The invariants -/

/-- The invariants of R28 that relate the block state to the register set: those of `State.Inv` but the widths of the
registers. They do not speak of `CNT`. -/
structure Consistent (P : Params) (b : Block) (r : RegSet) : Prop where
  topFits : fits P b.cfgTop
  codeRuns : b.cfgValid = true → b.cfgCs ≠ 0#4
  topLatched : b.cfgValid = true → r.top = b.cfgTop
  handleStored : r.ovfEnabled = true → b.handle.isSome = true
  stoppedCs : b.run = .stopped → r.cs = 0#4
  runningMode : b.run = .running → r.mode = Config.modePfc

theorem State.inv_iff (s : State) : s.Inv ↔ s.regs.InRange s.params ∧ Consistent s.params s.block s.regs :=
  ⟨fun ⟨h1, h2, h3, h4, h5, h6, h7⟩ => ⟨h1, h2, h3, h4, h5, h6, h7⟩,
    fun ⟨h1, h2, h3, h4, h5, h6, h7⟩ => ⟨h1, h2, h3, h4, h5, h6, h7⟩⟩

theorem consistent_atReset (P : Params) (d : Draw) : Consistent P (Block.atReset P d) (RegSet.atReset P d) where
  topFits := and_wideMask_fits P _
  codeRuns := nofun
  topLatched := nofun
  handleStored h := by rw [RegSet.atReset_ovfEnabled] at h; cases h
  stoppedCs _ := RegSet.atReset_cs P d
  runningMode := nofun

theorem State.atReset_inv (P : Params) (n : Nat) : (State.atReset P n).Inv :=
  (State.inv_iff _).mpr ⟨RegSet.atReset_inRange P _, consistent_atReset P _⟩

/-- Settles O15: the reset state of any parameters and any draw meets the invariants. -/
theorem invariantsHoldAtReset : Obligations.InvariantsHoldAtReset := State.atReset_inv _ _

theorem State.hardReset_inv (s : State) : s.hardReset.Inv :=
  (State.inv_iff _).mpr ⟨RegSet.atReset_inRange _ _, consistent_atReset _ _⟩

theorem RegSet.ovfEnabled_of_imask_zero {r : RegSet} (h : r.imask = 0x00#8) : r.ovfEnabled = false := by
  rw [RegSet.ovfEnabled, h, BitVec.getLsbD_zero]

section Consistent

variable {P : Params} {b : Block} {r r' : RegSet}

/-- The relations rest on `TOP`, `CTRL` and `IMASK` alone. -/
theorem Consistent.of_regs_eq (h : Consistent P b r) (htop : r'.top = r.top) (hctrl : r'.ctrl = r.ctrl)
    (himask : r'.imask = r.imask) : Consistent P b r' where
  topFits := h.topFits
  codeRuns := h.codeRuns
  topLatched hv := htop.trans (h.topLatched hv)
  handleStored hm := h.handleStored (by rwa [RegSet.ovfEnabled, himask] at hm)
  stoppedCs hr := by rw [RegSet.cs, hctrl]; exact h.stoppedCs hr
  runningMode hr := by rw [RegSet.mode, hctrl]; exact h.runningMode hr

/-- Writes of other locations than those three keep the relations. -/
theorem Consistent.regsAfter_of_writes (h : Consistent P b r) {acts : List Action}
    (hw : ∀ reg m d, Event.w reg m d ∈ eventsOf acts → reg ≠ .topl ∧ reg ≠ .ctrl ∧ reg ≠ .imask) :
    Consistent P b (regsAfter P acts r) := by
  have kept {reg : Reg} (hreg : ∀ reg', (∃ m d, Event.w reg' m d ∈ eventsOf acts) → reg ≠ reg') :
      (regsAfter P acts r).location reg = r.location reg :=
    regsAfter_keeps (RegSet.location · reg) P acts
      (fun reg' m d he u => u.write_location_of_ne P (hreg reg' ⟨m, d, he⟩) m d) r
  refine h.of_regs_eq (BitVec.eq_of_toNat_eq (kept (reg := .topl) fun reg' he => ?_))
    (BitVec.eq_of_toNat_eq (kept (reg := .ctrl) fun reg' he => ?_))
    (BitVec.eq_of_toNat_eq (kept (reg := .imask) fun reg' he => ?_))
  all_goals
    obtain ⟨m, d, he⟩ := he
    obtain ⟨htop, hctrl, himask⟩ := hw reg' m d he
  · exact htop.symm
  · exact hctrl.symm
  · exact himask.symm

/-- I1, I2: SETPERIOD stores a code of 1 to 15 and latches the top it stores. -/
theorem Consistent.setPeriod (h : Consistent P b r) (p : Period) :
    Consistent P (periodBlock P p b) (periodRegs P p r) where
  topFits := periodTop_fits P p
  codeRuns _ := by
    intro hcode
    have := (resolve_code_range P.res ((clockChoice P p.toNat).mult * p.toNat)).1
    rw [show (resolve P.res ((clockChoice P p.toNat).mult * p.toNat)).code = 0#4 from hcode] at this
    exact absurd this (by decide)
  topLatched _ := rfl
  handleStored := h.handleStored
  stoppedCs := h.stoppedCs
  runningMode := h.runningMode

/-- R91, R94: the restoring write's byte has the mode `MODE_PFC`. -/
theorem restoreByte_mode (cs : CsCode) : (restoreByte cs).extractLsb' 4 2 = Config.modePfc := by
  revert cs; decide

/-- I5: a write of `CTRL` that restores the mode lets the unit run. -/
theorem Consistent.running (h : Consistent P b r) (htop : r'.top = r.top) (himask : r'.imask = r.imask)
    (hmode : r'.mode = Config.modePfc) : Consistent P (b.setRun .running) r' where
  topFits := h.topFits
  codeRuns := h.codeRuns
  topLatched hv := htop.trans (h.topLatched hv)
  handleStored hm := h.handleStored (by rwa [RegSet.ovfEnabled, himask] at hm)
  stoppedCs := nofun
  runningMode _ := hmode

theorem Consistent.start (h : Consistent P b r) (cs : CsCode) :
    Consistent P (blockAfter (startActions cs) b) (regsAfter P (startActions cs) r) := by
  rw [regsAfter_startActions]
  exact h.running rfl rfl (restoreByte_mode cs)

theorem Consistent.resume (h : Consistent P b r) (cs : CsCode) :
    Consistent P (blockAfter (resumeActions cs) b) (regsAfter P (resumeActions cs) r) := by
  rw [regsAfter_resumeActions]
  refine h.running rfl rfl ?_
  have hkept : (r.ctrl &&& 0xC0#8).extractLsb' 4 2 = 0#2 := by
    rw [BitVec.extractLsb'_and]; exact BitVec.and_zero
  show ((r.ctrl &&& 0xC0#8) ||| restoreByte cs).extractLsb' 4 2 = _
  rw [BitVec.extractLsb'_or, hkept, restoreByte_mode, BitVec.zero_or]

/-- I4: STOP clears the clock-select bits. -/
theorem Consistent.stop (h : Consistent P b r) :
    Consistent P (blockAfter stopActions b) (regsAfter P stopActions r) := by
  rw [regsAfter_stopActions]
  refine ⟨h.topFits, h.codeRuns, h.topLatched, h.handleStored, fun _ => ?_, nofun⟩
  show (r.ctrl &&& 0xF0#8).extractLsb' 0 4 = 0#4
  rw [BitVec.extractLsb'_and]; exact BitVec.and_zero

/-- I3: ATTACH stores the handle before it sets the mask. -/
theorem Consistent.attach (h : Consistent P b r) (c : Handle) :
    Consistent P (blockAfter (attachActions c) b) (regsAfter P (attachActions c) r) where
  topFits := h.topFits
  codeRuns := h.codeRuns
  topLatched := h.topLatched
  handleStored _ := rfl
  stoppedCs := h.stoppedCs
  runningMode := h.runningMode

theorem Consistent.detach (h : Consistent P b r) :
    Consistent P (blockAfter detachActions b) (regsAfter P detachActions r) := by
  rw [regsAfter_detachActions]
  refine ⟨h.topFits, h.codeRuns, h.topLatched, fun hm => ?_, h.stoppedCs, h.runningMode⟩
  rw [RegSet.ovfEnabled_of_imask_zero rfl] at hm
  cases hm

/-- The PWM commands write none of the three locations. -/
theorem Consistent.pwm (h : Consistent P b r) {acts : List Action} {i : Instr}
    (hallowed : ∀ e ∈ eventsOf acts, e.Allowed i) (hperiod : setsPeriod i = false) (hrun : setsRun i = false)
    (hattach : ¬ Attaches i) (hdetach : i ≠ .detach) : Consistent P b (regsAfter P acts r) := by
  refine h.regsAfter_of_writes fun reg m d he => ?_
  have ha : WriteAllowed i reg m d := hallowed _ he
  refine ⟨?_, ?_, ?_⟩ <;> rintro rfl
  · exact absurd ha.1 (hperiod ▸ Bool.false_ne_true)
  · exact absurd ha.1 (hrun ▸ Bool.false_ne_true)
  · exact ha.2.elim (fun ha => hattach ha.1) fun ha => hdetach ha.1

theorem Consistent.enablePwm (h : Consistent P b r) (top : Wide) (ch : Chan) (d : Duty) :
    Consistent P (blockAfter (enablePwmActions top ch d) b) (regsAfter P (enablePwmActions top ch d) r) := by
  rw [blockAfter_enablePwmActions]
  exact h.pwm (allowed_of_mem_enablePwmActions (i := .enpwm ch d) (.inl ⟨ch, d, rfl⟩) top ch d) rfl rfl
    (by simp [Attaches]) (by simp)

end Consistent

/-- Every command's actions, run in order, keep the relations. -/
theorem Consistent.actionsOf {P : Params} {b : Block} {r : RegSet} (h : Consistent P b r) (s : State)
    (hP : s.params = P) (i : Instr) :
    Consistent P (blockAfter (actionsOf s i) b) (regsAfter P (actionsOf s i) r) := by
  have period (p : Period) :
      Consistent P (blockAfter (setPeriodActions P p) b) (regsAfter P (setPeriodActions P p) r) := by
    rw [blockAfter_setPeriodActions, regsAfter_setPeriodActions]; exact h.setPeriod p
  subst hP
  cases i with
  | init p | setperiod p => exact period p
  | start | restart => exact h.start _
  | stop => exact h.stop
  | resume => exact h.resume _
  | setpwmduty ch d =>
    rw [Machine.actionsOf, blockAfter_dutyActions]
    exact h.pwm (allowed_of_mem_dutyActions (i := .setpwmduty ch d) (.inr ⟨ch, d, rfl⟩) _ ch d) rfl rfl
      (by simp [Attaches]) (by simp)
  | dispwm ch =>
    rw [Machine.actionsOf, blockAfter_disablePwmActions]
    exact h.pwm (allowed_of_mem_disablePwmActions ch) rfl rfl (by simp [Attaches]) (by simp)
  | enpwm ch d => exact h.enablePwm _ ch d
  | enpwmp ch d p =>
    rw [Machine.actionsOf, blockAfter_append, regsAfter_append]
    exact (period p).enablePwm _ ch d
  | attach c => exact h.attach c
  | attachp c p =>
    rw [Machine.actionsOf, blockAfter_append, regsAfter_append]
    exact (period p).attach c
  | detach => exact h.detach

theorem State.tick_inRange {s : State} (h : s.regs.InRange s.params) (v : Wide) :
    (s.tick v).regs.InRange s.params := by
  unfold State.tick
  split
  · exact h
  · exact { h with cnt := and_wideMask_fits s.params v }

/-- A command keeps the widths of the registers, whatever the environment does. -/
theorem exec_inRange {i : Instr} {s t : State} (h : exec i s = .next t) (hs : s.regs.InRange s.params) :
    t.regs.InRange t.params :=
  exec_keeps (Q := fun u => u.regs.InRange u.params) (fun _ _ hu => hu)
    (fun u hu => by rwa [State.deliverOverflow_regs, State.deliverOverflow_params])
    (fun u v hu => by rw [State.tick_params]; exact State.tick_inRange hu v)
    (fun u _ => RegSet.atReset_inRange u.params _) h
    (fun u reg m d _ hu => RegSet.write_inRange reg m d hu) (fun _ _ hu => hu) (fun _ _ _ hu => hu) hs

/-- R28: a command keeps the invariants. -/
theorem exec_inv {i : Instr} {s t : State} (h : exec i s = .next t) (hs : s.Inv) : t.Inv := by
  obtain ⟨hrange, hcons⟩ := (State.inv_iff s).mp hs
  refine (State.inv_iff t).mpr ⟨exec_inRange h hrange, ?_⟩
  obtain ⟨-, rfl⟩ | ⟨-, ha | ha⟩ := exec_inversion h
  · exact hcons
  · rw [ha.params, ha.block, ha.regs]
    exact (hcons.actionsOf s rfl i).of_regs_eq rfl rfl rfl
  · rw [ha.params, ha.block, ha.regs]
    exact consistent_atReset _ _

/-- Settles O17: overflows change no register and no block state, the counter moves within its width, a reset starts
afresh, and `exec_inv`. -/
theorem everyStepKeepsTheInvariants : Obligations.EveryStepKeepsTheInvariants := by
  intro s t hs h
  refine step_keeps (fun u hu => ?_) (fun u v hu => ?_) (fun u _ => u.hardReset_inv) (fun u _ _ hu => ?_)
    (fun _ _ _ => exec_inv) h hs
  · rw [State.inv_iff] at hu ⊢
    rwa [State.deliverOverflow_regs, State.deliverOverflow_params, State.deliverOverflow_block]
  · obtain ⟨hrange, hcons⟩ := (State.inv_iff u).mp hu
    rw [State.inv_iff, State.tick_params, State.tick_block]
    refine ⟨State.tick_inRange hrange v, ?_⟩
    rw [State.tick_eq]
    exact hcons.of_regs_eq rfl rfl rfl
  · exact (State.inv_iff _).mpr ((State.inv_iff u).mp hu)

end Sys2Proof.Machine

namespace Sys2Proof.Machine

/-! ### The actions of the commands, one by one -/

/-- A lone write of a command is not half of a pair (R36), and the handle it stores is the one it attaches (R111). -/
def Action.Sound (i : Instr) : Action → Prop
  | .w reg mask data => (Event.w reg mask data).opensPair = false ∧ (Event.w reg mask data).closesPair = false
  | .setHandle h => storesHandle i = some h
  | .wide _ _ | .pin _ | .setConfig _ _ | .setRun _ => True

theorem sound_of_mem_setPeriodActions (i : Instr) (P : Params) (p : Period) :
    ∀ a ∈ setPeriodActions P p, a.Sound i := by
  have hpll : ∀ a ∈ pllActions P (clockChoice P p.toNat), a.Sound i := by
    unfold pllActions
    split
    · exact List.forall_mem_singleton.mpr ⟨rfl, rfl⟩
    · exact fun _ ha => absurd ha List.not_mem_nil
  refine List.forall_mem_append.mpr ⟨List.forall_mem_append.mpr ⟨List.forall_mem_singleton.mpr ⟨rfl, rfl⟩, hpll⟩, ?_⟩
  exact List.forall_mem_cons.mpr ⟨trivial, List.forall_mem_singleton.mpr trivial⟩

theorem sound_of_mem_dutyActions (i : Instr) (top : Wide) (ch : Chan) (d : Duty) :
    ∀ a ∈ dutyActions top ch d, a.Sound i := by
  unfold dutyActions
  split
  · exact fun _ ha => absurd ha List.not_mem_nil
  · exact List.forall_mem_singleton.mpr trivial

theorem sound_of_mem_enablePwmActions (i : Instr) (top : Wide) (ch : Chan) (d : Duty) :
    ∀ a ∈ enablePwmActions top ch d, a.Sound i := by
  unfold enablePwmActions
  split
  · exact fun _ ha => absurd ha List.not_mem_nil
  · refine List.forall_mem_append.mpr ⟨?_, sound_of_mem_dutyActions i top ch d⟩
    exact List.forall_mem_cons.mpr ⟨⟨rfl, rfl⟩, List.forall_mem_cons.mpr ⟨⟨rfl, rfl⟩,
      List.forall_mem_singleton.mpr trivial⟩⟩

theorem sound_of_mem_startActions (i : Instr) (cs : CsCode) : ∀ a ∈ startActions cs, a.Sound i :=
  List.forall_mem_cons.mpr ⟨trivial, List.forall_mem_cons.mpr ⟨⟨rfl, rfl⟩, List.forall_mem_cons.mpr ⟨⟨rfl, rfl⟩,
    List.forall_mem_singleton.mpr trivial⟩⟩⟩

theorem sound_of_mem_attachActions {i : Instr} {h : Handle} (hi : storesHandle i = some h) :
    ∀ a ∈ attachActions h, a.Sound i :=
  List.forall_mem_cons.mpr ⟨hi, List.forall_mem_singleton.mpr ⟨rfl, rfl⟩⟩

theorem sound_of_mem_actionsOf (s : State) (i : Instr) : ∀ a ∈ actionsOf s i, a.Sound i := by
  cases i with
  | init p | setperiod p => exact sound_of_mem_setPeriodActions _ s.params p
  | start | restart => exact sound_of_mem_startActions _ _
  | stop | resume => exact List.forall_mem_cons.mpr ⟨⟨rfl, rfl⟩, List.forall_mem_singleton.mpr trivial⟩
  | setpwmduty ch d => exact sound_of_mem_dutyActions _ _ ch d
  | enpwm ch d => exact sound_of_mem_enablePwmActions _ _ ch d
  | enpwmp ch d p =>
    exact List.forall_mem_append.mpr
      ⟨sound_of_mem_setPeriodActions _ s.params p, sound_of_mem_enablePwmActions _ _ ch d⟩
  | dispwm ch =>
    rw [actionsOf, disablePwmActions]
    split
    · exact fun _ ha => absurd ha List.not_mem_nil
    · exact List.forall_mem_singleton.mpr ⟨rfl, rfl⟩
  | attach h => exact sound_of_mem_attachActions rfl
  | attachp h p =>
    exact List.forall_mem_append.mpr ⟨sound_of_mem_setPeriodActions _ s.params p, sound_of_mem_attachActions rfl⟩
  | detach => exact List.forall_mem_singleton.mpr ⟨rfl, rfl⟩

/-! ### Pairs -/

/-- An event that is no half of a pair may stand before any trace. -/
theorem pairsWhole_cons_single {e : Event} (ho : e.opensPair = false) (hc : e.closesPair = false) (es : List Event) :
    pairsWhole (e :: es) = pairsWhole es := by
  cases es <;> simp [pairsWhole, ho, hc]

theorem pairsWhole_append {as bs : List Event} (ha : pairsWhole as = true) (hb : pairsWhole bs = true) :
    pairsWhole (as ++ bs) = true := by
  induction as using pairsWhole.induct with
  | case1 => exact hb
  | case2 e =>
    obtain ⟨ho, hc⟩ : e.opensPair = false ∧ e.closesPair = false := by simpa [pairsWhole] using ha
    rw [List.singleton_append, pairsWhole_cons_single ho hc]
    exact hb
  | case3 e f rest hc => simp [pairsWhole, hc] at ha
  | case4 e f rest hc ho ih =>
    simp only [pairsWhole, hc, ho, List.cons_append, Bool.false_eq_true, if_false, if_true, Bool.and_eq_true] at ha ⊢
    exact ⟨ha.1, ih ha.2⟩
  | case5 e f rest hc ho ih =>
    simp only [pairsWhole, hc, ho, List.cons_append, Bool.false_eq_true, if_false] at ha ⊢
    exact ih ha

/-- R36: what one action emits is a whole pair, or no half of one. -/
theorem Action.Sound.pairsWhole {i : Instr} {a : Action} (h : a.Sound i) : pairsWhole a.events = true := by
  cases a with
  | w reg m d =>
    obtain ⟨ho, hc⟩ := h
    rw [Action.events, pairsWhole_cons_single ho hc]; rfl
  | wide reg v => rcases reg with _ | _ | (_ | _ | _) <;> rfl
  | pin ch | setConfig code top | setHandle c | setRun r => rfl

theorem pairsWhole_deliverOverflow {s : State} (h : pairsWhole s.trace = true) :
    pairsWhole s.deliverOverflow.trace = true := by
  rw [State.deliverOverflow_trace]
  refine pairsWhole_append h ?_
  cases s.callback <;> rfl

/-- R38: at a point between two actions callbacks may come, and no half of a pair. -/
theorem pairsWhole_interruptPoint (e : List EnvInput) {s : State} (h : pairsWhole s.trace = true) :
    pairsWhole (interruptPoint e s).state.trace = true :=
  interruptPoint_keeps (Q := fun u => pairsWhole u.trace = true) (fun _ _ hu => hu)
    (fun _ => pairsWhole_deliverOverflow) (fun u v hu => by rwa [State.tick_trace u v]) (fun _ hu => hu) e s h

/-- R38: actions that each emit whole pairs keep the pairs whole: with no reset to come, an action's events come
together (`State.act_cases`), and what comes between two actions breaks no pair. -/
theorem pairsWhole_perform (acts : List Action) (hacts : ∀ a ∈ acts, pairsWhole a.events = true) (s : State)
    (hreset : NoReset s.env) (hs : pairsWhole s.trace = true) : pairsWhole (perform acts s).trace = true := by
  induction acts generalizing s with
  | nil => exact hs
  | cons a rest ih =>
    obtain ⟨t, hact, hafter, htrace⟩ | ⟨t, -, hafter⟩ := s.act_cases a
    case inr => exact absurd hafter.came hreset
    have ht : pairsWhole t.trace = true := by
      rw [htrace]; exact pairsWhole_append hs (hacts a List.mem_cons_self)
    cases rest with
    | nil => rw [perform, hact]; exact ht
    | cons b rest =>
      have hu := pairsWhole_interruptPoint t.env ht
      obtain ⟨u, hpoint, hafter'⟩ | ⟨u, hpoint, -⟩ := interruptPoint_cases t.env t
      · rw [hpoint] at hu
        simp only [perform, hact, hpoint]
        exact ih (fun c hc => hacts c (List.mem_cons_of_mem _ hc)) u
          (fun hm => hreset (hafter.env.subset (hafter'.env.subset hm))) hu
      · rw [hpoint] at hu
        simp only [perform, hact, hpoint]
        exact hu

theorem pairsWhole_exec {i : Instr} {s t : State} (h : exec i s = .next t) (hreset : NoReset s.env)
    (hs : pairsWhole s.trace = true) : pairsWhole t.trace = true := by
  rw [exec_eq, runCommand] at h
  cases h
  split
  · exact pairsWhole_perform _ (fun a ha => (sound_of_mem_actionsOf s i a ha).pairsWhole) s hreset hs
  · exact hs

/-- Settles O18: the inputs that remain are some of those before, and no kind of step breaks a pair. -/
theorem everyStepKeepsPairsWhole : Obligations.EveryStepKeepsPairsWhole := by
  intro s t hreset hs h
  have hsuffix {e : List EnvInput} (he : s.env = [] ∧ e = [] ∨ s.env = .proceed :: e) : NoReset e := by
    obtain ⟨-, rfl⟩ | he := he
    · exact noReset_nil
    · exact fun hm => hreset (he ▸ List.mem_cons_of_mem _ hm)
  refine ⟨fun hm => hreset ((env_suffix_of_step h).subset hm), ?_⟩
  obtain ⟨e, he, ws, rfl | ⟨i, hi⟩⟩ | ⟨e, -, rfl⟩ | ⟨v, e, -, rfl⟩ | ⟨e, -, rfl⟩ := step_cases h
  · exact hs
  · exact pairsWhole_exec hi (hsuffix he) hs
  · exact pairsWhole_deliverOverflow hs
  · rw [State.tick_trace]; exact hs
  · exact hs

/-! ### A command alone, and with an active environment -/

/-- The state after a list of actions that nothing interrupts. -/
def State.afterActions (s : State) (acts : List Action) : State :=
  { s with block := blockAfter acts s.block, regs := regsAfter s.params acts s.regs, trace := s.trace ++ eventsOf acts }

theorem State.afterActions_append (s : State) (as bs : List Action) :
    s.afterActions (as ++ bs) = (s.afterActions as).afterActions bs := by
  simp only [State.afterActions, blockAfter_append, regsAfter_append, eventsOf_append, List.append_assoc]

/-- With a silent environment a command of a present unit is its actions and nothing else. -/
theorem exec_silent (i : Instr) (s : State) (hp : s.params.variantPresent = true) (he : s.env = []) :
    exec i s = .next (s.afterActions (actionsOf s i)) := by
  obtain ⟨t, ht, ha⟩ := exec_after i s hp (he ▸ noReset_nil)
  rw [ht, ha.silent he, State.afterActions]

theorem actionsOf_setEnv (s : State) (e : List EnvInput) (i : Instr) :
    actionsOf { s with env := e } i = actionsOf s i := by
  cases i <;> rfl

/-- R33: no command reads a register. -/
theorem actionsOf_setRegs (s : State) (r : RegSet) (i : Instr) :
    actionsOf { s with regs := r } i = actionsOf s i := by
  cases i <;> rfl

/-- R13: no command reads `run`. -/
theorem actionsOf_setRun (s : State) (q : RunState) (i : Instr) :
    actionsOf { s with block := s.block.setRun q } i = actionsOf s i := by
  cases i <;> rfl

/-- Settles O21: the silent run is `exec_silent`, and the two ways of `exec_inversion` are stated against its effect. -/
theorem environmentOnlyInterleavesOrResets : Obligations.EnvironmentOnlyInterleavesOrResets := by
  intro i s t u es hp hu hes h
  rw [exec_silent i { s with env := [] } hp rfl, actionsOf_setEnv] at hu
  cases hu
  obtain rfl : eventsOf (actionsOf s i) = es := List.append_cancel_left hes
  obtain ⟨hinert, -⟩ | ⟨-, hafter⟩ := exec_inversion h
  · rw [hp] at hinert; cases hinert
  · exact hafter

/-- Settles O22: the actions are the same (`actionsOf_setRegs`), and their block state and events do not depend on the
registers. -/
theorem commandsNeverReadTheRegisterSet : Obligations.CommandsNeverReadTheRegisterSet := by
  intro i s t r hreset h
  obtain ⟨hinert, rfl⟩ | ⟨hp, ha | ha⟩ := exec_inversion h
  · exact ⟨_, exec_inert i { t with regs := r } hinert, rfl, rfl⟩
  · obtain ⟨t', ht', ha'⟩ := exec_after i { s with regs := r } hp hreset
    rw [actionsOf_setRegs] at ha'
    refine ⟨t', ht', ha'.block.trans ha.block.symm, ?_⟩
    obtain ⟨added, hadded, hev⟩ := ha.trace
    obtain ⟨added', hadded', hev'⟩ := ha'.trace
    rw [hadded, hadded', commandEvents_append, commandEvents_append, hev, hev']
  · exact absurd ha.came hreset

/-- Actions from two block states that differ only in `run` leave block states that differ only in `run`. -/
theorem blockAfter_setRun (acts : List Action) (b : Block) (q : RunState) :
    ∃ q', blockAfter acts (b.setRun q) = (blockAfter acts b).setRun q' := by
  induction acts generalizing b q with
  | nil => exact ⟨q, rfl⟩
  | cons a rest ih =>
    have ha : ∃ q', a.block (b.setRun q) = (a.block b).setRun q' := by
      cases a with
      | setRun r => exact ⟨r, rfl⟩
      | w reg m d | wide reg v | pin ch | setConfig code top | setHandle h => exact ⟨q, rfl⟩
    obtain ⟨q', ha⟩ := ha
    obtain ⟨q'', hrest⟩ := ih (a.block b) q'
    refine ⟨q'', ?_⟩
    show blockAfter rest (a.block (b.setRun q)) = _
    rw [ha, hrest]; rfl

/-- Settles O23: the actions are the same (`actionsOf_setRun`), and none of them reads `run`. -/
theorem noCommandReadsRun : Obligations.NoCommandReadsRun := by
  intro i s t q henv h
  show ∃ t', exec i { s with block := s.block.setRun q } = .next t' ∧ _
  cases hp : s.params.variantPresent
  · rw [exec_inert i s hp] at h
    cases h
    exact ⟨_, exec_inert i { s with block := s.block.setRun q } hp, rfl, rfl, rfl, rfl, rfl, rfl⟩
  · rw [exec_silent i s hp henv] at h
    cases h
    obtain ⟨q', hblock⟩ := blockAfter_setRun (actionsOf s i) s.block q
    refine ⟨_, exec_silent i { s with block := s.block.setRun q } hp henv, ?_⟩
    rw [actionsOf_setRun]
    unfold State.afterActions
    rw [hblock]
    exact ⟨rfl, rfl, rfl, rfl, rfl, rfl⟩

/-! ### Callbacks during a command -/

/-- Every event that `u` has more than `s` meets `R`. -/
def AddsOnly (R : Event → Prop) (s u : State) : Prop := ∃ es, u.trace = s.trace ++ es ∧ ∀ e ∈ es, R e

section AddsOnly

variable {R : Event → Prop} {s u v : State}

theorem AddsOnly.refl (R : Event → Prop) (s : State) : AddsOnly R s s :=
  ⟨[], (List.append_nil _).symm, fun _ he => absurd he List.not_mem_nil⟩

theorem AddsOnly.append (h : AddsOnly R s u) {es : List Event} (hv : v.trace = u.trace ++ es)
    (hes : ∀ e ∈ es, R e) : AddsOnly R s v := by
  obtain ⟨es', hu, hes'⟩ := h
  exact ⟨es' ++ es, by rw [hv, hu, List.append_assoc], List.forall_mem_append.mpr ⟨hes', hes⟩⟩

theorem AddsOnly.of_trace_eq (h : AddsOnly R s u) (hv : v.trace = u.trace) : AddsOnly R s v := by
  rwa [AddsOnly, hv]

theorem AddsOnly.event (h : AddsOnly R s u) {e : Event} (hv : v.trace = u.trace ++ [e]) (he : R e) :
    AddsOnly R s v :=
  h.append hv (List.forall_mem_singleton.mpr he)

theorem AddsOnly.deliverOverflow (h : AddsOnly R s u) (hc : ∀ c, u.callback = some c → R (.cb c)) :
    AddsOnly R s u.deliverOverflow := by
  refine h.append (State.deliverOverflow_trace u) fun e he => ?_
  obtain ⟨c, hcallback, rfl⟩ := Option.map_eq_some_iff.mp (Option.mem_toList.mp he)
  exact hc c hcallback

theorem AddsOnly.forall_mem (h : AddsOnly R s u) {es : List Event} (hes : u.trace = s.trace ++ es) :
    ∀ e ∈ es, R e := by
  obtain ⟨es', hu, hR⟩ := h
  obtain rfl : es' = es := List.append_cancel_left (hu.symm.trans hes)
  exact hR

end AddsOnly

theorem State.tick_ovfEnabled (s : State) (v : Wide) : (s.tick v).regs.ovfEnabled = s.regs.ovfEnabled := by
  rw [State.tick_eq]; rfl

theorem not_attaches_of_storesHandle {i : Instr} (h : storesHandle i = none) : ¬ Attaches i := by
  rintro (⟨c, rfl⟩ | ⟨c, p, rfl⟩) <;> cases h

/-- R21: of the commands that store no handle none sets the overflow mask. -/
theorem write_keeps_masked {i : Instr} (hi : storesHandle i = none) {P : Params} {r : RegSet}
    (hr : r.ovfEnabled = false) {reg : Reg} {m d : Byte} (ha : WriteAllowed i reg m d) :
    (r.write P reg m d).ovfEnabled = false := by
  cases reg
  case imask =>
    obtain ⟨rfl, ⟨hattach, -⟩ | ⟨-, rfl⟩⟩ := ha
    · exact absurd hattach (not_attaches_of_storesHandle hi)
    · rw [RegSet.write_imask_full]; exact RegSet.ovfEnabled_of_imask_zero rfl
  all_goals exact hr

/-- The mask is clear, and no callback was added since `s`. -/
def MaskedSince (s u : State) : Prop := u.regs.ovfEnabled = false ∧ AddsOnly (Event.ofCommand · = true) s u

/-- R116: a command that starts with the mask clear and stores no handle keeps it clear, a reset included. -/
theorem exec_maskedSince {i : Instr} {s t : State} (hi : storesHandle i = none) (hmask : s.regs.ovfEnabled = false)
    (h : exec i s = .next t) : MaskedSince s t := by
  refine exec_keeps (Q := MaskedSince s) (fun _ _ hu => hu) (fun u hu => ?overflow) (fun u v hu => ?tick)
    (fun u hu => ⟨RegSet.atReset_ovfEnabled _ _, hu.2⟩) h (fun u reg m d ha hu => ?write)
    (fun u ch hu => ⟨hu.1, hu.2.event rfl rfl⟩) (fun _ _ _ hu => hu) ⟨hmask, AddsOnly.refl _ s⟩
  case overflow => rwa [State.deliverOverflow_of_callback_none (State.callback_of_masked hu.1)]
  case tick => exact ⟨(State.tick_ovfEnabled u v).trans hu.1, hu.2.of_trace_eq (State.tick_trace u v)⟩
  case write => exact ⟨write_keeps_masked hi hu.1 ha, hu.2.event rfl rfl⟩

/-- Settles O24: while the mask is clear no overflow presents a handle. -/
theorem maskedOverflowsAreLost : Obligations.MaskedOverflowsAreLost :=
  fun _ _ _ _ hmask hi h hes => List.filter_eq_self.mpr ((exec_maskedSince hi hmask h).2.forall_mem hes)

/-- R14: an action leaves the handle as it was or stores the one its command attaches. -/
theorem Action.Sound.handle {i : Instr} {a : Action} (h : a.Sound i) (b : Block) :
    (a.block b).handle = b.handle ∨ (a.block b).handle = storesHandle i := by
  cases a with
  | setHandle c => exact .inr (Eq.symm h)
  | w reg m d | wide reg v | pin ch | setConfig code top | setRun r => exact .inl rfl

/-- The handle is the one `s` stores or the one `i` attaches. -/
def HandleOf (i : Instr) (s : State) (c : Handle) : Prop := s.block.handle = some c ∨ storesHandle i = some c

/-- The stored handle, if there is one, is one of the two, and so is that of every callback added since `s`. -/
def PresentsOnly (i : Instr) (s u : State) : Prop :=
  (∀ c, u.block.handle = some c → HandleOf i s c) ∧ AddsOnly (fun e => ∀ c, e = .cb c → HandleOf i s c) s u

/-- R116: throughout a command a callback presents the handle that is stored at its time; a reset stores none. -/
theorem exec_presentsOnly {i : Instr} {s t : State} (h : exec i s = .next t) : PresentsOnly i s t := by
  refine exec_keeps (Q := PresentsOnly i s) (fun _ _ hu => hu) (fun u hu => ?overflow) (fun u v hu => ?tick)
    (fun u hu => ⟨nofun, hu.2⟩) h (fun u reg m d _ hu => ⟨hu.1, hu.2.event rfl nofun⟩)
    (fun u ch hu => ⟨hu.1, hu.2.event rfl nofun⟩) (fun a ha u hu => ⟨fun c hc => ?action, hu.2⟩)
    ⟨fun _ => .inl, AddsOnly.refl _ s⟩
  case overflow =>
    refine ⟨by rw [State.deliverOverflow_block]; exact hu.1, hu.2.deliverOverflow fun c hc c' he => ?_⟩
    cases he
    exact hu.1 c (State.handle_of_callback hc)
  case tick => exact ⟨by rw [State.tick_block]; exact hu.1, hu.2.of_trace_eq (State.tick_trace u v)⟩
  case action =>
    obtain hkept | hstored := (sound_of_mem_actionsOf s i a ha).handle u.block
    · exact hu.1 c (hkept.symm.trans hc)
    · exact .inr (hstored.symm.trans hc)

/-- Settles O25: by `exec_presentsOnly`. -/
theorem callbacksCarryTheStoredHandle : Obligations.CallbacksCarryTheStoredHandle :=
  fun _ _ _ _ c h hes hc => (exec_presentsOnly h).2.forall_mem hes _ hc c rfl

end Sys2Proof.Machine

/-! PROOF. Completion of the attaching commands (`43_interrupt_hook.md` R111, R112), the counts of events
(`70_reset_and_hazards.md` R155), and laws of sequences of commands (`30_encoding.md` R58, `41_run_control.md` R96,
`42_pwm_channel.md` R107). -/

namespace Sys2Proof.Machine

/-! ### ATTACH and ATTACHP -/

/-- R111: the whole mask register is written, and no other. -/
theorem regsAfter_attachActions (P : Params) (h : Handle) (r : RegSet) :
    regsAfter P (attachActions h) r = { r with imask := 0x01#8 } :=
  RegSet.write_imask_full P r 0x01#8

/-- Settles O51: the handle's action, then the write of `regsAfter_attachActions`. -/
theorem attachCompletes : Obligations.AttachCompletes := by
  refine ⟨fun _ => decode_of_op_eleven, fun s c hpresent hreset => ?_⟩
  have h := exec_after (.attach c) s hpresent hreset
  rw [actionsOf, regsAfter_attachActions] at h
  exact h

/-- Settles O52: SETPERIOD's actions, then ATTACH's. -/
theorem attachPeriodCompletes : Obligations.AttachPeriodCompletes := by
  refine ⟨fun _ => decode_of_op_twelve, fun s c p hpresent hreset => ?_⟩
  have h := exec_after (.attachp c p) s hpresent hreset
  rw [actionsOf, blockAfter_append, regsAfter_append, eventsOf_append, blockAfter_setPeriodActions,
    regsAfter_setPeriodActions, eventsOf_setPeriodActions, regsAfter_attachActions] at h
  exact h

/-! ### The number of events -/

theorem length_eventsOf_setPeriodActions (P : Params) (p : Period) :
    (eventsOf (setPeriodActions P p)).length = periodEventCount P p := by
  rw [eventsOf_setPeriodActions, periodEvents, periodEventCount]
  split <;> rfl

theorem length_eventsOf_dutyActions (top : Wide) (ch : Chan) (d : Duty) :
    (eventsOf (dutyActions top ch d)).length = if 5 < ch.toNat then 0 else 2 := by
  obtain ⟨hch, k, hk⟩ | h := channel_cases ch
  · rw [eventsOf_dutyActions hk, if_neg (Nat.not_lt.mpr hch)]; rfl
  · rw [dutyActions_of_unsupported h, if_pos h]; rfl

theorem length_eventsOf_enablePwmActions (top : Wide) (ch : Chan) (d : Duty) :
    (eventsOf (enablePwmActions top ch d)).length = if 5 < ch.toNat then 0 else 5 := by
  obtain ⟨hch, k, hk⟩ | h := channel_cases ch
  · rw [eventsOf_enablePwmActions hk, if_neg (Nat.not_lt.mpr hch)]; rfl
  · rw [enablePwmActions_of_unsupported h, if_pos h]; rfl

theorem length_eventsOf_disablePwmActions (ch : Chan) :
    (eventsOf (disablePwmActions ch)).length = if 5 < ch.toNat then 0 else 1 := by
  obtain ⟨hch, -⟩ | h := channel_cases ch
  · rw [disablePwmActions_of_supported hch, if_neg (Nat.not_lt.mpr hch)]; rfl
  · rw [disablePwmActions_of_unsupported h, if_pos h]; rfl

/-- R155: the count of each command. -/
theorem length_eventsOf_actionsOf (s : State) (i : Instr) :
    (eventsOf (actionsOf s i)).length = eventCount s.params i := by
  cases i with
  | init p | setperiod p => exact length_eventsOf_setPeriodActions s.params p
  | start | stop | restart | resume | attach h | detach => rfl
  | setpwmduty ch d => exact length_eventsOf_dutyActions _ ch d
  | enpwm ch d => exact length_eventsOf_enablePwmActions _ ch d
  | enpwmp ch d p =>
    rw [actionsOf, eventsOf_append, List.length_append, length_eventsOf_setPeriodActions,
      length_eventsOf_enablePwmActions, eventCount]
  | dispwm ch => exact length_eventsOf_disablePwmActions ch
  | attachp h p =>
    rw [actionsOf, eventsOf_append, List.length_append, length_eventsOf_setPeriodActions, eventCount]
    rfl

/-- Settles O54: callbacks apart, the events of a command that completes are those of its actions. -/
theorem eventCountsAreExact : Obligations.EventCountsAreExact := by
  intro i s hpresent hreset
  obtain ⟨t, ht, ha⟩ := exec_after i s hpresent hreset
  obtain ⟨added, hadded, hev⟩ := ha.trace
  exact ⟨t, added, ht, hadded, by rw [hev, length_eventsOf_actionsOf]⟩

/-! ### Sequences -/

/-- With a silent environment a command whose actions are those of `i` and then those of `j`, from the state `i` leaves,
ends in the state of `i` followed by `j`. -/
theorem exec_seq_silent {i j ij : Instr} {s : State} (hp : s.params.variantPresent = true) (he : s.env = [])
    (hacts : actionsOf s ij = actionsOf s i ++ actionsOf (s.afterActions (actionsOf s i)) j) :
    exec ij s = exec j (s.afterActions (actionsOf s i)) := by
  rw [exec_silent ij s hp he, exec_silent j (s.afterActions (actionsOf s i)) hp he, hacts, State.afterActions_append]

/-- R104, R112: SETPERIOD leaves the new top value in `cfg_top`. -/
theorem cfgTop_afterActions_setPeriod (s : State) (p : Period) :
    (s.afterActions (setPeriodActions s.params p)).block.cfgTop = periodTop s.params p := by
  show (blockAfter (setPeriodActions s.params p) s.block).cfgTop = _
  rw [blockAfter_setPeriodActions]
  rfl

/-- Settles O55: RESTART and START have one meaning; in an inert unit nothing happens, and in a present one the actions
of the two combined commands are those of their parts (`exec_seq_silent`). -/
theorem pseudoForms : Obligations.PseudoForms := by
  refine ⟨rfl, fun _ => rfl, fun s ch d h p he => ?_⟩
  cases hp : s.params.variantPresent
  · exact ⟨s, s, s, exec_inert _ s hp, exec_inert _ s hp, exec_inert _ s hp, exec_inert _ s hp, exec_inert _ s hp⟩
  · have henable : exec (.enpwmp ch d p) s = exec (.enpwm ch d) (s.afterActions (actionsOf s (.setperiod p))) := by
      refine exec_seq_silent hp he ?_
      rw [actionsOf, actionsOf, actionsOf, cfgTop_afterActions_setPeriod]
    have hattach : exec (.attachp h p) s = exec (.attach h) (s.afterActions (actionsOf s (.setperiod p))) :=
      exec_seq_silent hp he rfl
    obtain ⟨u, hu⟩ := exec_completes (.enpwm ch d) (s.afterActions (actionsOf s (.setperiod p)))
    obtain ⟨v, hv⟩ := exec_completes (.attach h) (s.afterActions (actionsOf s (.setperiod p)))
    exact ⟨_, u, v, exec_silent _ s hp he, hu, henable.trans hu, hv, hattach.trans hv⟩

/-- What a command leaves of the premises of the next one. -/
theorem AfterCommand.premises {s t : State} {b : Block} {r : RegSet} {es : List Event} (h : AfterCommand s t b r es)
    (hpresent : s.params.variantPresent = true) (hreset : NoReset s.env) :
    t.params.variantPresent = true ∧ NoReset t.env :=
  ⟨h.params ▸ hpresent, fun hm => hreset (h.env.subset hm)⟩

/-- Settles O56: STOP's write clears bits 3:0 of `CTRL`, all within the bits that RESUME's write replaces. -/
theorem stopThenResume : Obligations.StopThenResume := by
  intro s hpresent hreset _
  obtain ⟨t, ht, ha⟩ := stopCompletes.2 s hpresent hreset
  obtain ⟨hpresent', hreset'⟩ := ha.premises hpresent hreset
  obtain ⟨u, hu, hb⟩ := resumeCompletes.2 t hpresent' hreset'
  refine ⟨t, u, ht, hu, ?_⟩
  have hctrl : t.regs.ctrl &&& 0xC0#8 = s.regs.ctrl &&& 0xC0#8 := by
    have hmasks : 0xF0#8 &&& 0xC0#8 = 0xC0#8 := rfl
    rw [ha.regs]
    show (s.regs.ctrl &&& 0xF0#8) &&& 0xC0#8 = _
    rw [BitVec.and_assoc, hmasks]
  have hblock : { t.block with run := .running } = { s.block with run := RunState.running } := by rw [ha.block]
  have hcs : t.block.cfgCs = s.block.cfgCs := by rw [ha.block]
  rw [hblock, hctrl, hcs] at hb
  exact ha.trans hb (by rw [ha.regs]) id

/-- R107: setting an output-enable bit again after clearing it gives the byte with the bit set. -/
theorem set_clear_set (x bit : Byte) : (x ||| bit) &&& ~~~bit ||| bit = x ||| bit := by
  ext j hj
  simp only [BitVec.getElem_or, BitVec.getElem_and, BitVec.getElem_not]
  cases x[j] <;> cases bit[j] <;> rfl

/-- R107: enabling a channel twice, its output-enable bit cleared and the counter moved in between, gives the register set
of the first enable but for the counter. -/
theorem enableRegs_again (ch : Chan) (k : Comparator) (pd : Nat) (r : RegSet) (c c' : Wide) :
    { enableRegs ch k pd { enableRegs ch k pd r with
        outen := (enableRegs ch k pd r).outen &&& ~~~(1#8 <<< ch.toNat), cnt := c } with cnt := c' }
      = { enableRegs ch k pd r with cnt := c' } := by
  cases k <;> simp only [enableRegs, dutyRegs, RegSet.withCmp, set_clear_set, BitVec.or_assoc, BitVec.or_self]

/-- Settles O57: the three completions one after the other; DISPWM leaves the block state, so the second enable scales the
duty as the first one did, and `enableRegs_again`. -/
theorem disableThenEnableAgain : Obligations.DisableThenEnableAgain := by
  intro s ch d hpresent hreset hch htop
  obtain ⟨k, hk⟩ : ∃ k : Comparator, k.index = ch.toNat / 2 := by
    obtain ⟨k, hk⟩ := channelComparator_of_supported hch
    exact ⟨k, index_of_channelComparator hk⟩
  obtain ⟨t, ht, ha⟩ := enablePwmCompletes.2.2 s ch d k hpresent hreset hk htop
  obtain ⟨hpresent', hreset'⟩ := ha.premises hpresent hreset
  obtain ⟨u, hu, hb⟩ := disablePwmCompletes.2.2 t ch hpresent' hreset' hch
  obtain ⟨hpresent'', hreset''⟩ := hb.premises hpresent' hreset'
  have hblock : u.block = s.block := hb.block.trans ha.block
  have hparams : u.params = s.params := hb.params.trans ha.params
  obtain ⟨v, hv, hc⟩ := enablePwmCompletes.2.2 u ch d k hpresent'' hreset'' hk (by rwa [hblock, hparams])
  refine ⟨t, u, v, ht, hu, hv, ?_, fun k' => ?_, ?_, ?_, hb.block⟩
  · have hduty : u.block.cfgTop = s.block.cfgTop := by rw [hblock]
    rw [hc.regs, hduty, hb.regs, ha.regs]
    exact enableRegs_again ch k _ s.regs _ _
  · rw [hb.regs]; cases k' <;> rfl
  · rw [hb.regs]
  · rw [hb.regs]

end Sys2Proof.Machine
